-- ==== Sys2Proof/Word.lean ====
section
/-! DEFINITION. The word types of the LZWGIF encoder (R20, R57, R70): plain bit vectors of the widths the spec names. -/

namespace Sys2Proof

/-- A command word: one parallel 16-bit value, bit 0 the least significant (R7, R57, R70). -/
abbrev Word := BitVec 16

/-- A byte of the output stream or of a packer chunk (R52, R57). -/
abbrev Byte := BitVec 8

/-- A symbol, a palette index 0..3 (R11, R72). -/
abbrev Sym := BitVec 2

/-- A code 0..4095 (R11): also the width of `prefix` and of the codes stored in `T` (R20). -/
abbrev Code := BitVec 12

end Sys2Proof
end

