-- ==== Sys2Proof/Syntax.lean ====
section
/-! DEFINITION. The command set (R2, R70 to R75): one constructor per row of the opcode table, and the assembler's lines (R78, R79). -/

namespace Sys2Proof

/-- The six commands (R73). The operand types are exactly the operand fields of R72: a symbol of 4 or more
cannot be written, as the spec says. -/
inductive Instr where
  /-- START (R110): open a compressor frame; `raw` selects RAW. -/
  | start (raw : Bool)
  /-- SYM (R111): take one symbol. -/
  | sym (s : Sym)
  /-- END (R112): close a compressor frame. -/
  | endFrame
  /-- PSTART (R143): open a packer frame. -/
  | pstart
  /-- PBYTE (R144): give the packer one byte. -/
  | pbyte (b : Byte)
  /-- PEND (R145): close a packer frame. -/
  | pend
deriving DecidableEq, Repr

/-- One line of the assembler's notation (R78) or a pseudo-instruction (R79). The numbers are what the
programmer wrote, so a line can be out of range; `AsmLine.wellFormed` says when it is not. -/
inductive AsmLine where
  | start (raw : Bool)
  | sym (n : Nat)
  | endFrame
  | pstart
  | pbyte (v : Nat)
  | pend
  /-- `.WORD h`: any 16-bit word, the only way to write an illegal one. -/
  | word (h : Nat)
  /-- `FRAME s1, ..., sn`. -/
  | frame (xs : List Nat)
  /-- `RAWFRAME s1, ..., sn`. -/
  | rawFrame (xs : List Nat)
  /-- `PBLOCK v1, ..., vn`. -/
  | pblock (ys : List Nat)
deriving DecidableEq, Repr

end Sys2Proof
end

