-- ==== Sys2Proof/WellFormed.lean ====
section
/-! DEFINITION. Well-formedness. A command's operands are well-formed by their types (R72); a line of the assembler is well-formed when its numbers fit their fields (R78). -/

namespace Sys2Proof

/-- Every term of `Instr` is a command: START's operand is one bit, SYM's two, PBYTE's eight (R72), and
the types hold no other value. Stated by constructor so that a constructor added later must say its own. -/
def Instr.wellFormed : Instr → Bool
  | .start _ => true
  | .sym s => decide (s.toNat < 4)
  | .endFrame => true
  | .pstart => true
  | .pbyte b => decide (b.toNat < 256)
  | .pend => true

/-- "An assembler refuses `SYM` with n > 3 and `PBYTE` with v > 255 rather than truncate" (R78); `.WORD`
takes any 16-bit value, and a pseudo-instruction is as good as the lines it expands to (R79). -/
def AsmLine.wellFormed : AsmLine → Bool
  | .start _ => true
  | .sym n => decide (n < 4)
  | .endFrame => true
  | .pstart => true
  | .pbyte v => decide (v < 256)
  | .pend => true
  | .word h => decide (h < 65536)
  | .frame xs => xs.all fun n => decide (n < 4)
  | .rawFrame xs => xs.all fun n => decide (n < 4)
  | .pblock ys => ys.all fun v => decide (v < 256)

end Sys2Proof
end

