-- ==== Sys2Proof/Decode.lean ====
section
/-! DEFINITION. Decoding a command word (R70 to R76): field extraction, the two ways a word is no command, the decoder, the encoder written from the same table, and the host's entry point `decodeTableWord`. -/

namespace Sys2Proof

/-- The field OP, `cmd[15:12]` (R70). -/
def fieldOp (w : Word) : BitVec 4 := w.extractLsb' 12 4

/-- The field RSV, `cmd[11:8]` (R70). -/
def fieldRsv (w : Word) : BitVec 4 := w.extractLsb' 8 4

/-- The field OPD, `cmd[7:0]` (R70). -/
def fieldOpd (w : Word) : Byte := w.extractLsb' 0 8

/-- Why a word is no command (R74, R75). Each raises an error in `Step` (R76). -/
inductive DecodeError where
  /-- OP is 0x0 or 0x7..0xF (R75). -/
  | illegalOpcode
  /-- OP is legal and a reserved bit is 1 (R74). -/
  | reservedBits
deriving DecidableEq, Repr

/-- `rsvmask` of R76: the reserved bits of OPD by opcode, none for an opcode that is illegal. -/
def reservedMask (op : BitVec 4) : Option Byte :=
  if op = 1 then some 0xFE
  else if op = 2 then some 0xFC
  else if op = 3 then some 0xFF
  else if op = 4 then some 0xFF
  else if op = 5 then some 0x00
  else if op = 6 then some 0xFF
  else none

/-- The command a legal opcode and its OPD select (R72, the `case` of R76); none for an illegal opcode. -/
def commandOf (op : BitVec 4) (opd : Byte) : Option Instr :=
  if op = 1 then some (.start (opd.getLsbD 0))
  else if op = 2 then some (.sym (opd.extractLsb' 0 2))
  else if op = 3 then some .endFrame
  else if op = 4 then some .pstart
  else if op = 5 then some (.pbyte opd)
  else if op = 6 then some .pend
  else none

/-- The decoder: the first two checks of `Step` in their order, then the selection (R76). -/
def decode (w : Word) : Except DecodeError Instr :=
  match reservedMask (fieldOp w), commandOf (fieldOp w) (fieldOpd w) with
  | some mask, some i =>
    if fieldRsv w ≠ 0 ∨ fieldOpd w &&& mask ≠ 0 then .error .reservedBits else .ok i
  | _, _ => .error .illegalOpcode

/-- The column `match` of the opcode table (R73). -/
def matchOf : Instr → Word
  | .start _ => 0x1000
  | .sym _ => 0x2000
  | .endFrame => 0x3000
  | .pstart => 0x4000
  | .pbyte _ => 0x5000
  | .pend => 0x6000

/-- The column `mask` of the opcode table (R73). -/
def maskOf : Instr → Word
  | .start _ => 0xFFFE
  | .sym _ => 0xFFFC
  | .endFrame => 0xFFFF
  | .pstart => 0xFFFF
  | .pbyte _ => 0xFF00
  | .pend => 0xFFFF

/-- The operand bits of a command, in their place in the word (R72). -/
def operandBits : Instr → Word
  | .start raw => (BitVec.ofBool raw).setWidth 16
  | .sym s => s.setWidth 16
  | .endFrame => 0
  | .pstart => 0
  | .pbyte b => b.setWidth 16
  | .pend => 0

/-- The word of a command (R73, R78). -/
def encode (i : Instr) : Word := matchOf i ||| operandBits i

/-- The host's entry point: the command whose word has the low `nbits` bits of `w` and zeros above. -/
def decodeTableWord (nbits w : Nat) : Option Instr :=
  match decode (BitVec.ofNat 16 (w % 2 ^ nbits)) with
  | .ok i => some i
  | .error _ => none

end Sys2Proof
end

