-- ==== Sys2Proof/Config.lean ====
section
/-! DEFINITION. The fixed parameters of the block (R6, R100) and what the spec leaves to an implementation, as constants with no body. -/

namespace Sys2Proof.Config

/-- `clearCode`, emitted at frame start and on table overflow (R100). -/
def clear : Code := 4

/-- `eoiCode`, emitted once at frame end (R100). -/
def eoi : Code := 5

/-- FIRST_CODE, the first code a table entry receives (R100, R104). -/
def firstCode : Nat := 6

/-- INIT_WIDTH, the code width of a fresh table (R100, R104). -/
def initWidth : Nat := 3

/-- MAX_WIDTH (R100). -/
def maxWidth : Nat := 12

/-- TABLE_LIMIT (R100). -/
def tableLimit : Nat := 4096

/-- MAX_CHUNK (R6, R140). -/
def maxChunk : Nat := 255

/-- TERMINATOR (R6, R141). -/
def terminator : Byte := 0

/-- The most bytes one command outputs (R148, R189). -/
def maxCommandOutput : Nat := 261

/-- How many bytes the internal output buffer holds beyond the 261 it needs for one command. DESIGN CHOICE
(log 5): the spec calls the size not architectural (R189), so it has no value here. -/
opaque outputExtra : Nat

/-- Whether the block waits for room for the largest possible output (261 bytes) before it accepts a word, or
only for the output of the word that is next. DESIGN CHOICE (log 5): R189 allows both readings. -/
opaque waitsForWorstCase : Bool

/-- The cut point of the `n`-th reset: how many of the produced and not yet taken bytes the host still gets
(R181, I6: a free draw). DESIGN CHOICE (log 6): a free value, applied to State's counter of draws. -/
opaque resetCut : Nat → Nat

end Sys2Proof.Config
end

