-- ==== Sys2Proof/Machine/State.lean ====
section
/-! DEFINITION. The machine's state as plain data (R20), the reasons a step can stop, and the state after reset (R38). -/

namespace Sys2Proof.Machine

/-- `mode` (R20, R21): 0 IDLE, 1 PACKED, 2 RAW, 3 DIRECT. Its 2-bit code is `Mode.bits` (Machine/Flags.lean). -/
inductive Mode where
  /-- No frame is open. -/
  | idle
  /-- A compressor frame is open and its bytes go to the packer. -/
  | packed
  /-- A compressor frame is open and its bytes go straight to the output. -/
  | raw
  /-- A packer frame is open, fed by PBYTE. -/
  | direct
deriving DecidableEq, Repr

/-- `cause` (R22, R161). The codes 4..7 are never written (R161, I7), so no constructor stands for them (log 9). -/
inductive Cause where
  | none
  | illegalOpcode
  | reservedBits
  | modeViolation
deriving DecidableEq, Repr

/-- One entry of the code table `T`: the key (prefix, symbol) and its code (R24). -/
structure Entry where
  pfx : Code
  sym : Sym
  code : Code
deriving DecidableEq, Repr

/-- One byte on the output port with its `last` mark (R57, R58). -/
structure OutByte where
  data : Byte
  last : Bool
deriving DecidableEq, Repr

/-- What moves next, where the outside world has a say (log 3). -/
inductive Turn where
  /-- The block may accept the word at the command port. -/
  | command
  /-- The host takes one byte from the output port (R189). -/
  | take
  /-- The host asserts `rst` (R180). -/
  | reset
deriving DecidableEq, Repr

/-- The whole state. The first block is the spec's own list (R20); the second is the outside world's side of
the ports, the model's own fields (log 2, 3, 4, 6). -/
structure State where
  /-- `mode` (R21). -/
  mode : Mode
  /-- `err`, the error latch (R22, R30). -/
  err : Bool
  /-- `cause` of the first error since reset (R22). -/
  cause : Cause
  /-- `errcmd`, the word that raised it (R22). -/
  errcmd : Word
  /-- `T`, the code table (R24), newest entry first (log 8). -/
  table : List Entry
  /-- `nextCode`, the code the next entry receives (R23). -/
  nextCode : BitVec 13
  /-- `width`, the code width (R23). -/
  width : BitVec 4
  /-- `prefix`, the code of the longest match so far (R23). -/
  prefixCode : Code
  /-- `havePrefix`: a symbol of this frame has been taken (R23). -/
  havePrefix : Bool
  /-- `bitBuf`, the undrained bits (R25). -/
  bitBuf : Byte
  /-- `bitCnt`, how many there are (R25). -/
  bitCnt : BitVec 3
  /-- `pkBuf`, the bytes of the current chunk in arrival order; its length is `pkCnt` (R26, R39; log 7). -/
  pkBuf : List Byte
  /-- Words offered on the command port and not yet accepted, oldest first (R57, R60; log 2). -/
  cmdIn : List Word
  /-- What moves next; when the list is empty it is a command turn (log 3). -/
  turns : List Turn
  /-- Bytes produced and not yet taken, oldest first (R52, R189; log 4). -/
  outQ : List OutByte
  /-- Bytes the host has taken, oldest first (R52, R190; log 4). -/
  taken : List OutByte
  /-- How many free values have been drawn (log 6). -/
  draws : Nat
deriving DecidableEq, Repr

/-- Reasons for a fault: none. Every error the spec describes is the error latch, a next state (R163), and
the data path never fails (R142, R160). Nobody raises a fault, which is safe: no step is cut short. -/
inductive Fault where
deriving DecidableEq, Repr

/-- Reasons for a refusal. -/
inductive Refusal where
  /-- Raised by an arm of `exec` whose instruction has no meaning yet; safe. No arm does. -/
  | notModelled (mnemonic : String)
deriving DecidableEq, Repr

/-- The state right after reset (R38, R180): every element of the spec at the value it states. The chunk
buffer lists no byte (R38 leaves its contents unspecified, R39 says they are never read; log 7), and
nothing is offered, produced or taken yet (log 2, 3, 4, 6). -/
def State.reset : State where
  mode := .idle
  err := false
  cause := .none
  errcmd := 0
  table := []
  nextCode := 6
  width := 3
  prefixCode := 0
  havePrefix := false
  bitBuf := 0
  bitCnt := 0
  pkBuf := []
  cmdIn := []
  turns := []
  outQ := []
  taken := []
  draws := 0

end Sys2Proof.Machine
end

