-- ==== Sys2Proof/Machine/Flags.lean ====
section
/-! DEFINITION. The status ports as functions of the state (R28, R29, R166), and the modes in which each command is legal (R77). -/

namespace Sys2Proof.Machine

/-- The 2-bit code of a mode (R20). -/
def Mode.bits : Mode → BitVec 2
  | .idle => 0
  | .packed => 1
  | .raw => 2
  | .direct => 3

/-- The 3-bit code of a cause (R161). -/
def Cause.bits : Cause → BitVec 3
  | .none => 0
  | .illegalOpcode => 1
  | .reservedBits => 2
  | .modeViolation => 3

/-- `pkCnt`, the number of bytes in the chunk buffer (R26; log 7). -/
def State.pkCnt (s : State) : Nat := s.pkBuf.length

/-- The STATUS port (R28). -/
def State.statusPort (s : State) : BitVec 32 :=
  s.mode.bits.setWidth 32 ||| ((BitVec.ofBool s.err).setWidth 32 <<< 2) ||| (s.cause.bits.setWidth 32 <<< 3)
    ||| (s.width.setWidth 32 <<< 8) ||| (s.nextCode.setWidth 32 <<< 12)

/-- The ERRCMD port (R29). -/
def State.errcmdPort (s : State) : Word := s.errcmd

/-- The `err` output line, equal to STATUS.ERR (R166). -/
def State.errLine (s : State) : Bool := s.statusPort.getLsbD 2

/-- `Legal(op)` (R77): the modes in which a command is legal. -/
def legalIn (i : Instr) (m : Mode) : Bool :=
  match i with
  | .start _ => m == .idle
  | .sym _ => m == .packed || m == .raw
  | .endFrame => m == .packed || m == .raw
  | .pstart => m == .idle
  | .pbyte _ => m == .direct
  | .pend => m == .direct

end Sys2Proof.Machine
end

