-- ==== Sys2Proof/Machine/Operands.lean ====
section
/-! DEFINITION. What the operand of each command stands for in the machine (R72, R101, R110). -/

namespace Sys2Proof.Machine

/-- START's operand: 1 selects RAW, 0 PACKED (R72, R110). -/
def modeOfRaw (raw : Bool) : Mode := if raw then .raw else .packed

/-- The code of a one-symbol string is the symbol itself (R101). -/
def literalCode (s : Sym) : Code := s.setWidth 12

end Sys2Proof.Machine
end

