-- ==== Sys2Proof/Machine/Ops.lean ====
section
/-! DEFINITION. The named operations the commands are made of: the output stream, error entry and reset, the code table, the bit accumulator, the packer's chunk, and the check every command makes first. -/

namespace Sys2Proof.Machine

/-! ## The output stream -/

/-- `Out(b)` for each byte of a list, in order (R52): appended, not marked. -/
def outAll (bs : List Byte) (s : State) : State :=
  { s with outQ := s.outQ ++ bs.map fun b => ⟨b, false⟩ }

/-- A list of output bytes with the `last` mark on its last byte (R58). -/
def markLast : List OutByte → List OutByte
  | [] => []
  | [b] => [{ b with last := true }]
  | b :: c :: bs => b :: markLast (c :: bs)

/-- Run an effect and put the `last` mark on the last byte that it outputs (R58). -/
def withLastMark (effect : State → State) (s : State) : State :=
  let t := effect { s with outQ := [] }
  { t with outQ := s.outQ ++ markLast t.outQ }

/-! ## Taking an error, and the only way back -/

/-- `raise Error(c)` for the word being processed (R163): the whole of error entry. -/
def raiseError (c : Cause) (cmd : Word) (s : State) : State :=
  { s with err := true, cause := c, errcmd := cmd }

/-- Asserting `rst` (R180, R181), the only return from an error (R165). Every element of the spec takes its
reset value. Of the bytes produced and not yet taken the host gets a freely drawn number and the rest is
discarded (R181, I6; log 6). What the host then holds stays in `taken`, in front of what follows (log 19). Words the host
still offers, and its later turns, stay (log 11). -/
def assertReset (s : State) : State :=
  { State.reset with
    cmdIn := s.cmdIn
    turns := s.turns
    taken := s.taken ++ s.outQ.take (Config.resetCut s.draws)
    draws := s.draws + 1 }

/-- The host takes one byte from the output port, if there is one (R57, R189). -/
def takeByte (s : State) : State :=
  match s.outQ with
  | [] => s
  | b :: rest => { s with outQ := rest, taken := s.taken ++ [b] }

/-! ## The packer -/

/-- `PackByte(b)` (R140): add one byte to the chunk; the byte that fills it sends it out behind its length. -/
def packByte (b : Byte) (s : State) : State :=
  let chunk := s.pkBuf ++ [b]
  if chunk.length = Config.maxChunk then
    outAll (BitVec.ofNat 8 Config.maxChunk :: chunk) { s with pkBuf := [] }
  else
    { s with pkBuf := chunk }

/-- `PackEnd()` (R141): the last, partial chunk if there is one, then the terminator. -/
def packEnd (s : State) : State :=
  let chunk := if 0 < s.pkCnt then BitVec.ofNat 8 s.pkCnt :: s.pkBuf else []
  outAll (chunk ++ [Config.terminator]) { s with pkBuf := [] }

/-! ## The code table -/

/-- `Lookup(p, s)` (R102). -/
def lookup (p : Code) (x : Sym) (t : List Entry) : Option Code :=
  match t with
  | [] => none
  | e :: rest => if e.pfx = p ∧ e.sym = x then some e.code else lookup p x rest

/-- `Insert(p, s, c)` (R103), called only when `Lookup(p, s)` answers none. -/
def insertEntry (p : Code) (x : Sym) (c : Code) (t : List Entry) : List Entry := ⟨p, x, c⟩ :: t

/-- `ResetTable()` (R104). It touches neither `prefix` nor the accumulator nor the packer. -/
def resetTable (s : State) : State :=
  { s with
    table := []
    nextCode := BitVec.ofNat 13 Config.firstCode
    width := BitVec.ofNat 4 Config.initWidth }

/-- `GrowWidth()` (R109): the comparison is strict. -/
def growWidth (s : State) : State :=
  if 2 ^ s.width.toNat < s.nextCode.toNat ∧ s.width.toNat < Config.maxWidth then
    { s with width := BitVec.ofNat 4 (s.width.toNat + 1) }
  else s

/-! ## The bit accumulator -/

/-- `LzwOut(b)` (R106). It is called only while a compressor frame is open; the two other modes are never met
here and change nothing (log 13). -/
def lzwOut (b : Byte) (s : State) : State :=
  match s.mode with
  | .raw => outAll [b] s
  | .packed => packByte b s
  | .idle => s
  | .direct => s

/-- `LzwOut` for each byte of a list, in order. -/
def lzwOutAll (bs : List Byte) (s : State) : State := bs.foldl (fun t b => lzwOut b t) s

/-- `n` turns of the loop of `EmitCode` (R105): the low byte of `acc` goes out, the rest moves down. -/
def drain : Nat → Nat → State → State
  | 0, _, s => s
  | n + 1, acc, s => drain n (acc >>> 8) (lzwOut (BitVec.ofNat 8 acc) s)

/-- `EmitCode(c)` (R105). The loop runs while 8 bits or more are there, so `(bitCnt + width) / 8` times. -/
def emitCode (c : Code) (s : State) : State :=
  let acc := s.bitBuf.toNat ||| (c.toNat <<< s.bitCnt.toNat)
  let n := s.bitCnt.toNat + s.width.toNat
  { drain (n / 8) acc s with
    bitBuf := BitVec.ofNat 8 (acc >>> (8 * (n / 8)))
    bitCnt := BitVec.ofNat 3 (n % 8) }

/-- `FlushBits()` (R107). -/
def flushBits (s : State) : State :=
  { (if 0 < s.bitCnt.toNat then lzwOut s.bitBuf s else s) with bitBuf := 0, bitCnt := 0 }

/-! ## The main loop's action on a miss -/

/-- The table has room: insert the pair under `nextCode` and grow the width if need be (R108). -/
def learn (x : Sym) (s : State) : State :=
  growWidth
    { s with
      table := insertEntry s.prefixCode x (BitVec.ofNat 12 s.nextCode.toNat) s.table
      nextCode := BitVec.ofNat 13 (s.nextCode.toNat + 1) }

/-- `Miss(s)` (R108): emit the prefix; insert, or on a full table emit CLEAR and reset it. -/
def miss (x : Sym) (s : State) : State :=
  let t := emitCode s.prefixCode s
  let u := if s.nextCode.toNat < Config.tableLimit then learn x t else resetTable (emitCode Config.clear t)
  { u with prefixCode := literalCode x }

/-! ## The check before every command -/

/-- A command in its place in `Step` (R76): discarded while halted (R164), an error where its mode is not legal
(R77), else its effect. The word of a command is its encoding (log 10). -/
def checked (i : Instr) (effect : State → State) (s : State) : Host.Outcome State Fault Refusal :=
  if s.err then .next s
  else if legalIn i s.mode then .next (effect s)
  else .next (raiseError .modeViolation (encode i) s)

end Sys2Proof.Machine
end

