-- ==== Sys2Proof/Machine/Lzw.lean ====
section
/-! DEFINITION. The compressor's commands: START (R110), SYM (R111), END (R112). -/

namespace Sys2Proof.Machine

/-- START past its checks (R110). -/
def startEffect (raw : Bool) (s : State) : State :=
  emitCode Config.clear
    { resetTable { s with mode := modeOfRaw raw } with
      prefixCode := 0, havePrefix := false, bitBuf := 0, bitCnt := 0, pkBuf := [] }

/-- START (R110): open a compressor frame. -/
def execStart (raw : Bool) (s : State) : Host.Outcome State Fault Refusal :=
  checked (.start raw) (startEffect raw) s

/-- SYM past its checks (R111): the first symbol of the frame, a hit, or a miss. -/
def symEffect (x : Sym) (s : State) : State :=
  if s.havePrefix = false then
    { s with prefixCode := literalCode x, havePrefix := true }
  else
    match lookup s.prefixCode x s.table with
    | some c => { s with prefixCode := c }
    | none => miss x s

/-- SYM (R111): take one symbol. -/
def execSym (x : Sym) (s : State) : Host.Outcome State Fault Refusal :=
  checked (.sym x) (symEffect x) s

/-- END past its checks (R112), but for the `last` mark. -/
def endEffect (s : State) : State :=
  let a := if s.havePrefix then emitCode s.prefixCode s else s
  let b := flushBits (emitCode Config.eoi a)
  let c := if b.mode = .packed then packEnd b else b
  { resetTable { c with mode := .idle } with prefixCode := 0, havePrefix := false }

/-- END (R112): close a compressor frame; its last byte carries the mark (R58). -/
def execEndFrame (s : State) : Host.Outcome State Fault Refusal :=
  checked .endFrame (withLastMark endEffect) s

end Sys2Proof.Machine
end

