-- ==== Sys2Proof/Machine/Packer.lean ====
section
/-! DEFINITION. The packer's commands: PSTART (R143), PBYTE (R144), PEND (R145). -/

namespace Sys2Proof.Machine

/-- PSTART past its checks (R143). -/
def pstartEffect (s : State) : State := { s with mode := .direct, pkBuf := [] }

/-- PSTART (R143): open a packer frame fed by PBYTE. -/
def execPstart (s : State) : Host.Outcome State Fault Refusal :=
  checked .pstart pstartEffect s

/-- PBYTE (R144): give the packer one byte. -/
def execPbyte (b : Byte) (s : State) : Host.Outcome State Fault Refusal :=
  checked (.pbyte b) (packByte b) s

/-- PEND past its checks (R145), but for the `last` mark. -/
def pendEffect (s : State) : State := { packEnd s with mode := .idle }

/-- PEND (R145): close a packer frame; its terminator carries the mark (R58). -/
def execPend (s : State) : Host.Outcome State Fault Refusal :=
  checked .pend (withLastMark pendEffect) s

end Sys2Proof.Machine
end

