-- ==== Sys2Proof/Machine/Dispatch.lean ====
section
/-! DEFINITION. One arm per command: the `case` of `Step` (R76). -/

namespace Sys2Proof.Machine

/-- The meaning of a command (R76). -/
def exec (i : Instr) (s : State) : Host.Outcome State Fault Refusal :=
  match i with
  | .start raw => Sys2Proof.Machine.execStart raw s
  | .sym x => Sys2Proof.Machine.execSym x s
  | .endFrame => Sys2Proof.Machine.execEndFrame s
  | .pstart => Sys2Proof.Machine.execPstart s
  | .pbyte b => Sys2Proof.Machine.execPbyte b s
  | .pend => Sys2Proof.Machine.execPend s

end Sys2Proof.Machine
end

