-- ==== Sys2Proof/Machine/Accept.lean ====
section
/-! DEFINITION. One accepted word as one atomic step (R76), and when the block accepts the word at its port (R189). -/

namespace Sys2Proof.Machine

/-- The cause a word that is no command raises (R161). -/
def causeOf : DecodeError → Cause
  | .illegalOpcode => .illegalOpcode
  | .reservedBits => .reservedBits

/-- `Step(cmd)` (R76): discarded while halted, else the decode errors, else the command. -/
def stepWord (w : Word) (s : State) : Host.Outcome State Fault Refusal :=
  if s.err then .next s
  else
    match decode w with
    | .ok i => exec i s
    | .error e => .next (raiseError (causeOf e) w s)

/-- The fold of `Step` over a sequence of accepted words (R60). -/
def runWords : List Word → State → Host.Outcome State Fault Refusal
  | [], s => .next s
  | w :: ws, s =>
    match stepWord w s with
    | .next t => runWords ws t
    | .fault r => .fault r
    | .refused r => .refused r

/-- Flow control (R189): whether the block, holding what `before` holds, accepts a word that leads to `after`.
With nothing held it always does; a halted block never blocks the host (R164); else the output must fit, by
one of the two readings that R189 allows (log 5). -/
def accepts (before after : State) : Bool :=
  before.err ||
    match before.outQ with
    | [] => true
    | _ :: _ =>
      decide (before.outQ.length
          + (if Config.waitsForWorstCase then Config.maxCommandOutput else after.outQ.length - before.outQ.length)
        ≤ Config.maxCommandOutput + Config.outputExtra)

/-- A command turn: with a word offered that the block accepts, the word is consumed and processed (R59, R63);
else nothing changes (R173, R189). -/
def commandTurn (s : State) : Host.Outcome State Fault Refusal :=
  match s.cmdIn with
  | [] => .next s
  | w :: rest =>
    match stepWord w { s with cmdIn := rest } with
    | .next t => if accepts s t then .next t else .next s
    | .fault r => .fault r
    | .refused r => .refused r

/-- The state in which the next step accepts and runs the word `w`: offered first, on a command turn, with
the output port drained so that flow control cannot hold it back (log 2). -/
def offerWord (w : Word) (s : State) : State :=
  { s with
    cmdIn := w :: s.cmdIn
    turns := .command :: s.turns
    outQ := []
    taken := s.taken ++ s.outQ }

end Sys2Proof.Machine
end

