-- ==== Sys2Proof/Machine/Step.lean ====
section
/-! DEFINITION. One step of the machine: whose turn it is, and what it does. -/

namespace Sys2Proof.Machine

/-- One step. Inputs land between commands only (R59): a take turn, a reset turn, or a command turn, which it
is too when no turn is listed (log 3). -/
def step (s : State) : Host.Outcome State Fault Refusal :=
  match s.turns with
  | [] => commandTurn s
  | .command :: ts => commandTurn { s with turns := ts }
  | .take :: ts => .next (takeByte { s with turns := ts })
  | .reset :: ts => .next (assertReset { s with turns := ts })

/-- `s` with the word whose low `nbits` bits are those of `w` placed where the next step takes its command. -/
def State.withFetchWord (s : State) (nbits w : Nat) : State :=
  offerWord (BitVec.ofNat 16 (w % 2 ^ nbits)) s

end Sys2Proof.Machine
end

