-- ==== Sys2Proof/Machine/Frames.lean ====
section
/-! DEFINITION. The whole-sequence functions of the spec, written apart from the machine on unbounded naturals and bit strings: `LZW(x)` (R113), `Pack(y)` (R146), a reader of `Pack(y)` (R149), and the words of a whole frame (R79). -/

namespace Sys2Proof.Machine

/-! ## Bit strings, least significant bit first (R53) -/

/-- The `w` low bits of `n`, bit 0 first (R53, R113). -/
def natBits (w n : Nat) : List Bool := (List.range w).map n.testBit

/-- The number whose bits are given, bit 0 first. -/
def bitsToNat : List Bool → Nat
  | [] => 0
  | b :: bs => b.toNat + 2 * bitsToNat bs

/-- The bits of a byte sequence in stream order (R53). -/
def bytesBits (bs : List Byte) : List Bool := bs.flatMap fun b => natBits 8 b.toNat

/-- "the bits of acc, least significant first, in bytes, the last byte padded with 0 bits" (R113). -/
def bitsToBytes (bits : List Bool) : List Byte :=
  (List.range ((bits.length + 7) / 8)).map fun j => BitVec.ofNat 8 (bitsToNat ((bits.drop (8 * j)).take 8))

/-- The bits that the accumulator holds, oldest first (R25). -/
def State.accBits (s : State) : List Bool := natBits s.bitCnt.toNat s.bitBuf.toNat

/-! ## `LZW(x)` (R113) -/

/-- The variables of R113, but for the prefix. -/
structure Coder where
  dict : List ((Nat × Nat) × Nat)
  nextCode : Nat
  width : Nat
  acc : List Bool
deriving DecidableEq, Repr

/-- `T <- empty; nextCode <- 6; width <- 3; acc <- empty bit string`. -/
def coderFresh : Coder := ⟨[], 6, 3, []⟩

/-- `emit(c)`: the `width` low bits of `c`, bit 0 first. -/
def coderEmit (c : Nat) (k : Coder) : Coder := { k with acc := k.acc ++ natBits k.width c }

/-- One turn of the loop of R113, on the coder and the prefix. -/
def coderStep (kp : Coder × Nat) (x : Nat) : Coder × Nat :=
  match kp.1.dict.lookup (kp.2, x) with
  | some c => (kp.1, c)
  | none =>
    let k := coderEmit kp.2 kp.1
    if k.nextCode < 4096 then
      ({ dict := ((kp.2, x), k.nextCode) :: k.dict
         nextCode := k.nextCode + 1
         width := if 2 ^ k.width < k.nextCode + 1 ∧ k.width < 12 then k.width + 1 else k.width
         acc := k.acc }, x)
    else
      ({ coderFresh with acc := (coderEmit 4 k).acc }, x)

/-- The coder when the input is exhausted and the final prefix, if any, has been emitted. -/
def coderRun : List Nat → Coder
  | [] => coderEmit 4 coderFresh
  | x :: xs =>
    let kp := xs.foldl coderStep (coderEmit 4 coderFresh, x)
    coderEmit kp.2 kp.1

/-- `LZW(x)` (R113). -/
def lzw (xs : List Sym) : List Byte :=
  bitsToBytes (coderEmit 5 (coderRun (xs.map BitVec.toNat))).acc

/-! ## `Pack(y)` (R146) and its reader (R149) -/

/-- The `j`-th chunk of `y`: at most 255 bytes (R146). -/
def chunkOf (y : List Byte) (j : Nat) : List Byte := (y.drop (255 * j)).take 255

/-- `Pack(y)` (R146): `j` runs while `255 * j < m`. -/
def pack (y : List Byte) : List Byte :=
  ((List.range ((y.length + 254) / 255)).flatMap fun j =>
    BitVec.ofNat 8 (chunkOf y j).length :: chunkOf y j) ++ [0]

/-- Read sub-blocks up to the terminator, with fuel for one block each (R149). -/
def unpackFuel : Nat → List Byte → Option (List Byte × List Byte)
  | 0, _ => none
  | _ + 1, [] => none
  | f + 1, n :: rest =>
    if n = 0 then some ([], rest)
    else if rest.length < n.toNat then none
    else
      match unpackFuel f (rest.drop n.toNat) with
      | none => none
      | some (y, z) => some (rest.take n.toNat ++ y, z)

/-- The reader of R149: the payload, and what follows the terminator. -/
def unpack (bs : List Byte) : Option (List Byte × List Byte) := unpackFuel bs.length bs

/-! ## Whole frames (R79) -/

/-- The words of `FRAME` and `RAWFRAME` (R79). -/
def frameWords (raw : Bool) (xs : List Sym) : List Word :=
  encode (.start raw) :: (xs.map fun x => encode (.sym x)) ++ [encode .endFrame]

/-- The words of `PBLOCK` (R79). -/
def packerWords (ys : List Byte) : List Word :=
  encode .pstart :: (ys.map fun b => encode (.pbyte b)) ++ [encode .pend]

/-- A whole frame of one of the three kinds (R11, R190). -/
inductive Frame where
  | raw (xs : List Sym)
  | packed (xs : List Sym)
  | direct (ys : List Byte)
deriving DecidableEq, Repr

/-- The words that send a frame. -/
def wordsOf : Frame → List Word
  | .raw xs => frameWords true xs
  | .packed xs => frameWords false xs
  | .direct ys => packerWords ys

/-- The bytes a frame outputs (R113, R146, R190). -/
def bytesOf : Frame → List Byte
  | .raw xs => lzw xs
  | .packed xs => pack (lzw xs)
  | .direct ys => pack ys

/-- Bytes on the output port, the last of them marked (R58). -/
def asFrameOutput (bs : List Byte) : List OutByte := markLast (bs.map fun b => ⟨b, false⟩)

end Sys2Proof.Machine
end

