-- ==== Sys2Proof/Machine/Assembler.lean ====
section
/-! DEFINITION. The assembler of R78 and R79: lines to words, and the written form of a line (characters) to a line. -/

namespace Sys2Proof.Machine

/-- The words of a line whose numbers are in range (R78, R79). -/
def wordsOfLine : AsmLine → List Word
  | .start raw => [encode (.start raw)]
  | .sym n => [encode (.sym (BitVec.ofNat 2 n))]
  | .endFrame => [encode .endFrame]
  | .pstart => [encode .pstart]
  | .pbyte v => [encode (.pbyte (BitVec.ofNat 8 v))]
  | .pend => [encode .pend]
  | .word h => [BitVec.ofNat 16 h]
  | .frame xs => frameWords false (xs.map fun n => BitVec.ofNat 2 n)
  | .rawFrame xs => frameWords true (xs.map fun n => BitVec.ofNat 2 n)
  | .pblock ys => packerWords (ys.map fun v => BitVec.ofNat 8 v)

/-- Assemble one line; a number out of range is refused, never truncated (R78). -/
def assembleLine (l : AsmLine) : Option (List Word) :=
  if l.wellFormed then some (wordsOfLine l) else none

/-! ## The written form: case-insensitive mnemonics, `;` to end of line a comment (R78). That operands ignore case
too, and how tokens and numbers are written beyond R78, is the model's choice (log 12). -/

/-- What ends a token: a blank, a tab, or the comma between the operands of a pseudo-instruction. DESIGN CHOICE
(log 12): R78 does not say what separates tokens. -/
def isSeparator (c : Char) : Bool := c = ' ' || c = '\t' || c = ','

/-- The tokens of a line in capitals; `cur` is the token being read, last character first. DESIGN CHOICE (log 12):
R78 makes the mnemonics case-insensitive and is silent on operands; the model capitalises every token, so that
PACKED and RAW, the 0x of a number, its hexadecimal digits and the names of R79 ignore case as well. -/
def tokens : List Char → List Char → List (List Char)
  | cur, [] => if cur = [] then [] else [cur.reverse]
  | cur, c :: cs =>
    if isSeparator c then (if cur = [] then tokens [] cs else cur.reverse :: tokens [] cs)
    else tokens (c.toUpper :: cur) cs

/-- The value of a digit in base 10 or 16. -/
def digitValue (base : Nat) (c : Char) : Option Nat :=
  if 48 ≤ c.toNat ∧ c.toNat ≤ 57 then some (c.toNat - 48)
  else if base = 16 ∧ 65 ≤ c.toNat ∧ c.toNat ≤ 70 then some (c.toNat - 55)
  else none

/-- The value of a digit string, `acc` the value so far. -/
def readDigits (base : Nat) : Nat → List Char → Option Nat
  | acc, [] => some acc
  | acc, c :: cs =>
    match digitValue base c with
    | none => none
    | some d => readDigits base (acc * base + d) cs

/-- A number, decimal or hexadecimal behind 0x, as R78 has it for PBYTE. DESIGN CHOICE (log 12): the same two forms
for SYM, .WORD and the pseudo-instructions; the X is a capital here because `tokens` capitalises. -/
def readNumber : List Char → Option Nat
  | [] => none
  | ['0', 'X'] => none
  | '0' :: 'X' :: ds => readDigits 16 0 ds
  | ds => readDigits 10 0 ds

/-- The numbers after a pseudo-instruction (R79). -/
def readNumbers : List (List Char) → Option (List Nat)
  | [] => some []
  | t :: ts =>
    match readNumber t, readNumbers ts with
    | some n, some ns => some (n :: ns)
    | _, _ => none

/-- A line from its tokens; none where it is no line of R78 or R79. -/
def lineOfTokens : List (List Char) → Option AsmLine
  | [['S', 'T', 'A', 'R', 'T']] => some (.start false)
  | [['S', 'T', 'A', 'R', 'T'], ['P', 'A', 'C', 'K', 'E', 'D']] => some (.start false)
  | [['S', 'T', 'A', 'R', 'T'], ['R', 'A', 'W']] => some (.start true)
  | [['S', 'Y', 'M'], t] => (readNumber t).map .sym
  | [['E', 'N', 'D']] => some .endFrame
  | [['P', 'S', 'T', 'A', 'R', 'T']] => some .pstart
  | [['P', 'B', 'Y', 'T', 'E'], t] => (readNumber t).map .pbyte
  | [['P', 'E', 'N', 'D']] => some .pend
  | [['.', 'W', 'O', 'R', 'D'], t] => (readNumber t).map .word
  | ['F', 'R', 'A', 'M', 'E'] :: ts => (readNumbers ts).map .frame
  | ['R', 'A', 'W', 'F', 'R', 'A', 'M', 'E'] :: ts => (readNumbers ts).map .rawFrame
  | ['P', 'B', 'L', 'O', 'C', 'K'] :: ts => (readNumbers ts).map .pblock
  | _ => none

/-- Assemble one written line: no word for an empty line or a comment, none where the line is refused. -/
def assembleText (cs : List Char) : Option (List Word) :=
  match tokens [] (cs.takeWhile (· ≠ ';')) with
  | [] => some []
  | ts =>
    match lineOfTokens ts with
    | none => none
    | some l => assembleLine l

end Sys2Proof.Machine
end

