-- ==== Sys2Proof/Safety.lean ====
section
/-! DEFINITION. What claims are stated in: the invariants of the state (R31 to R37), the observation and the success of a run (R190), and when two states hold the same block. -/

namespace Sys2Proof.Machine

/-- The compressor's registers at their IDLE values (R31, R38). -/
abbrev State.CompressorIdle (s : State) : Prop :=
  s.table = [] ∧ s.nextCode = 6 ∧ s.width = 3 ∧ s.prefixCode = 0 ∧ s.havePrefix = false ∧ s.bitBuf = 0 ∧ s.bitCnt = 0

/-- R33, for a table whose next code is `n`: the codes are `n - 1` down to 6, newest first, no key occurs
twice, and every key's prefix is below `n` and neither CLEAR nor EOI. -/
abbrev TableInv (n : Nat) (t : List Entry) : Prop :=
  (t.map fun e => e.code.toNat) = (List.range' 6 (n - 6)).reverse
    ∧ (t.map fun e => (e.pfx, e.sym)).Nodup
    ∧ ∀ e ∈ t, e.pfx.toNat < n ∧ e.pfx ≠ Config.clear ∧ e.pfx ≠ Config.eoi

/-- The invariants of 10_state.md, which hold after reset and after every command. -/
structure State.Inv (s : State) : Prop where
  /-- R31; in DIRECT mode the compressor "stays at its IDLE values" too (R143). -/
  compressorIdle : s.mode = .idle ∨ s.mode = .direct → s.CompressorIdle
  /-- R31, R36. -/
  packerEmpty : s.mode = .idle ∨ s.mode = .raw → s.pkBuf = []
  /-- R36. -/
  chunkShort : s.pkCnt ≤ 254
  /-- R32. -/
  nextCodeRange : 6 ≤ s.nextCode.toNat ∧ s.nextCode.toNat ≤ 4096
  /-- R32: the width is 3, or the least one that holds `nextCode`. -/
  widthLeast : 3 ≤ s.width.toNat ∧ s.width.toNat ≤ 12 ∧ s.nextCode.toNat ≤ 2 ^ s.width.toNat
    ∧ (s.width.toNat = 3 ∨ 2 ^ (s.width.toNat - 1) < s.nextCode.toNat)
  /-- R33. -/
  tableCodes : TableInv s.nextCode.toNat s.table
  /-- R34. -/
  prefixKnown : s.havePrefix = true →
    s.prefixCode.toNat < 4 ∨ (6 ≤ s.prefixCode.toNat ∧ s.prefixCode.toNat < s.nextCode.toNat)
  /-- R34. -/
  prefixZero : s.havePrefix = false → s.prefixCode = 0
  /-- R35. -/
  bitsHeld : s.bitBuf.toNat < 2 ^ s.bitCnt.toNat
  /-- R37. -/
  latchSet : s.err = true → s.cause ≠ .none
  /-- R37. -/
  latchClear : s.err = false → s.cause = .none ∧ s.errcmd = 0

/-- `t` with the outside world's side of the ports as `s` has it: equal to `s` when `s` and `t` hold the same
block, that is, agree on every element of R20. -/
def State.withPortsOf (t s : State) : State :=
  { t with cmdIn := s.cmdIn, turns := s.turns, outQ := s.outQ, taken := s.taken, draws := s.draws }

/-- The output byte stream with its marks: what the host took and what it has yet to take (R52, R190). It spans
resets: what the host held at a reset stays in front. DESIGN CHOICE (log 19). -/
def State.output (s : State) : List OutByte := s.taken ++ s.outQ

/-- The output byte stream without the marks (R52). -/
def State.outputBytes (s : State) : List Byte := s.output.map OutByte.data

/-- What is observed of a run (R190). -/
structure Observation where
  output : List OutByte
  status : BitVec 32
  errcmd : Word
deriving DecidableEq, Repr

/-- The observation of a run that is in state `s` (R190). DESIGN CHOICE (log 19): of a run that meets a reset turn
it counts the bytes the host held from before that reset too, which R190 leaves open. -/
def State.observe (s : State) : Observation := ⟨s.output, s.statusPort, s.errcmdPort⟩

/-- "every word has been accepted and processed and the host has taken every byte" (R190). -/
abbrev State.RunEnded (s : State) : Prop := s.cmdIn = [] ∧ s.outQ = []

/-- "A run *succeeded* when at its end `err = 0` and `mode = IDLE`" (R190). It is asked of the end state alone, so a
run that met a reset turn can succeed, whatever came before the reset. DESIGN CHOICE (log 19). -/
abbrev State.Succeeded (s : State) : Prop := s.RunEnded ∧ s.err = false ∧ s.mode = .idle

end Sys2Proof.Machine
end

