-- ==== Sys2Proof/Certificates/Slice0/Obligations.lean ====
section
/-! DEFINITION. The statements about the LZWGIF encoder, from the numbered rules of the spec. -/

open Sys2Proof Sys2Proof.Machine

namespace Sys2Proof.Machine

/-- The state after `raise Error(c)` for the word `cmd`, spelled out (R163): nothing else changes. -/
abbrev latched (c : Cause) (cmd : Word) (s : State) : State := { s with err := true, cause := c, errcmd := cmd }

/-- OP of R76 is one of the six (R73). -/
abbrev opcodeLegal (w : Word) : Prop := 1 ≤ (w.extractLsb' 12 4).toNat ∧ (w.extractLsb' 12 4).toNat ≤ 6

/-- A reserved bit of the word is 1 (R72, R74), opcode by opcode. -/
abbrev reservedBitSet (w : Word) : Prop :=
  w.extractLsb' 8 4 ≠ 0
    ∨ (w.extractLsb' 12 4 = 1 ∧ w.extractLsb' 1 7 ≠ 0)
    ∨ (w.extractLsb' 12 4 = 2 ∧ w.extractLsb' 2 6 ≠ 0)
    ∨ (w.extractLsb' 12 4 = 3 ∧ w.extractLsb' 0 8 ≠ 0)
    ∨ (w.extractLsb' 12 4 = 4 ∧ w.extractLsb' 0 8 ≠ 0)
    ∨ (w.extractLsb' 12 4 = 6 ∧ w.extractLsb' 0 8 ≠ 0)

/-- The next step is a command turn, after which the turns `ts` are left: one is listed, or none is at all. -/
abbrev commandTurnNext (s : State) (ts : List Turn) : Prop :=
  s.turns = .command :: ts ∨ (s.turns = [] ∧ ts = [])

/-- Bytes on the output port with no mark. -/
abbrev plainBytes (bs : List Byte) : List OutByte := bs.map fun b => ⟨b, false⟩

end Sys2Proof.Machine

/-! ## Encoding -/

/-- Words written out bit by bit from R73 decode to the commands they stand for. -/
def Obligations.TableWordsDecodeToTheirCommands : Prop :=
  decode 0b0001000000000000 = .ok (.start false) ∧ decode 0b0001000000000001 = .ok (.start true)
    ∧ decode 0b0010000000000011 = .ok (.sym 3) ∧ decode 0b0011000000000000 = .ok .endFrame
    ∧ decode 0b0100000000000000 = .ok .pstart ∧ decode 0b0101000011111110 = .ok (.pbyte 0xFE)
    ∧ decode 0b0110000000000000 = .ok .pend ∧ decode 0b0000000000000000 = .error .illegalOpcode
    ∧ decode 0b0010000000000100 = .error .reservedBits

/-- For every well-formed command and every operand, decoding its word gives it back. -/
def Obligations.DecodeOfEncodeGivesTheCommand : Prop :=
  ∀ i : Instr, i.wellFormed = true → decode (encode i) = .ok i

/-- The word of a decoded command is the word it came from: no bit is dropped. -/
def Obligations.EncodeOfDecodeGivesTheWord : Prop :=
  ∀ (w : Word) (i : Instr), decode w = .ok i → i.wellFormed = true ∧ encode i = w

/-- R73: a word selects a command exactly when it agrees with the row's match under its mask, with the operand
of R72; an OP of no row is illegal, and a word with a legal OP that matches no row has nonzero reserved bits. -/
def Obligations.WordSelectsCommandByMaskAndMatch : Prop :=
  ∀ w : Word,
    (∀ raw, decode w = .ok (.start raw) ↔ (w &&& 0xFFFE = 0x1000 ∧ w.getLsbD 0 = raw))
      ∧ (∀ x, decode w = .ok (.sym x) ↔ (w &&& 0xFFFC = 0x2000 ∧ w.extractLsb' 0 2 = x))
      ∧ (decode w = .ok .endFrame ↔ w &&& 0xFFFF = 0x3000)
      ∧ (decode w = .ok .pstart ↔ w &&& 0xFFFF = 0x4000)
      ∧ (∀ b, decode w = .ok (.pbyte b) ↔ (w &&& 0xFF00 = 0x5000 ∧ w.extractLsb' 0 8 = b))
      ∧ (decode w = .ok .pend ↔ w &&& 0xFFFF = 0x6000)
      ∧ (¬ opcodeLegal w → decode w = .error .illegalOpcode)
      ∧ (opcodeLegal w → (∀ i, decode w ≠ .ok i) → reservedBitSet w)

/-! ## Errors -/

/-- R75: an illegal opcode raises ILLEGAL_OPCODE whatever the other 12 bits hold, in every mode. -/
def Obligations.IllegalOpcodeRaisesItsError : Prop :=
  ∀ (w : Word) (s : State), s.err = false → ¬ opcodeLegal w →
    stepWord w s = .next (latched .illegalOpcode w s)

/-- R74: reserved bits are never ignored; a legal opcode with one set raises RESERVED_BITS, in every mode. -/
def Obligations.ReservedBitRaisesItsError : Prop :=
  ∀ (w : Word) (s : State), s.err = false → opcodeLegal w → reservedBitSet w →
    stepWord w s = .next (latched .reservedBits w s)

/-- R77, row by row: where the table says "error", MODE_VIOLATION and nothing else; where it says "legal", a
next state with no error latched. -/
def Obligations.ModeTableDecidesLegality : Prop :=
  ∀ s : State, s.err = false →
    (∀ raw, (s.mode ≠ .idle → exec (.start raw) s = .next (latched .modeViolation (encode (.start raw)) s))
      ∧ (s.mode = .idle → ∃ t, exec (.start raw) s = .next t ∧ t.err = false))
    ∧ (∀ x, (s.mode = .idle ∨ s.mode = .direct →
          exec (.sym x) s = .next (latched .modeViolation (encode (.sym x)) s))
      ∧ (s.mode = .packed ∨ s.mode = .raw → ∃ t, exec (.sym x) s = .next t ∧ t.err = false))
    ∧ ((s.mode = .idle ∨ s.mode = .direct → exec .endFrame s = .next (latched .modeViolation (encode .endFrame) s))
      ∧ (s.mode = .packed ∨ s.mode = .raw → ∃ t, exec .endFrame s = .next t ∧ t.err = false))
    ∧ ((s.mode ≠ .idle → exec .pstart s = .next (latched .modeViolation (encode .pstart) s))
      ∧ (s.mode = .idle → ∃ t, exec .pstart s = .next t ∧ t.err = false))
    ∧ (∀ b, (s.mode ≠ .direct → exec (.pbyte b) s = .next (latched .modeViolation (encode (.pbyte b)) s))
      ∧ (s.mode = .direct → ∃ t, exec (.pbyte b) s = .next t ∧ t.err = false))
    ∧ ((s.mode ≠ .direct → exec .pend s = .next (latched .modeViolation (encode .pend) s))
      ∧ (s.mode = .direct → ∃ t, exec .pend s = .next t ∧ t.err = false))

/-- R162, R163, R167: a word that raises an error changes the latch and nothing else, records itself and raises
the `err` line, and of the causes that apply the first in the order ILLEGAL_OPCODE, RESERVED_BITS, MODE_VIOLATION is latched. -/
def Obligations.ErrorsArePreciseAndOrdered : Prop :=
  ∀ (w : Word) (s t : State), s.err = false → stepWord w s = .next t → t.err = true →
    t = latched t.cause w s ∧ t.errLine = true
      ∧ (¬ opcodeLegal w → t.cause = .illegalOpcode)
      ∧ (opcodeLegal w → reservedBitSet w → t.cause = .reservedBits)
      ∧ (opcodeLegal w → ¬ reservedBitSet w → t.cause = .modeViolation)

/-- R164: while halted every word is consumed and discarded, the host is never blocked, and no sequence of
words changes anything. -/
def Obligations.HaltedBlockDiscardsEveryWord : Prop :=
  ∀ s : State, s.err = true →
    (∀ w rest ts, commandTurnNext s ts → s.cmdIn = w :: rest →
      step s = .next { s with cmdIn := rest, turns := ts })
    ∧ (∀ ws, runWords ws s = .next s)

/-- R22, R30, R165: once latched, `err`, `cause` and `errcmd` (and every element of the block) keep their
values through every step but a reset turn, which clears them and discards the unfinished frame. -/
def Obligations.LatchHoldsUntilReset : Prop :=
  ∀ s t : State, s.err = true → step s = .next t →
    ((∃ ts, s.turns = .reset :: ts) → t.err = false ∧ t.withPortsOf State.reset = State.reset ∧ t.outQ = [])
      ∧ ((∀ ts, s.turns ≠ .reset :: ts) → t.withPortsOf s = s)

/-! ## Reset -/

/-- R38, R180: a reset turn, from any state, gives every element its reset value, and the ports read as said. The
last two clauses, that the words offered and the turns to come stay, are the model's choice (log 11, log 3). -/
def Obligations.ResetSetsEveryElement : Prop :=
  ∀ (s : State) (ts : List Turn), s.turns = .reset :: ts →
    ∃ t, step s = .next t
      ∧ t.mode = .idle ∧ t.err = false ∧ t.cause = .none ∧ t.errcmd = 0x0000 ∧ t.table = []
      ∧ t.nextCode = 6 ∧ t.width = 3 ∧ t.prefixCode = 0 ∧ t.havePrefix = false
      ∧ t.bitBuf = 0 ∧ t.bitCnt = 0 ∧ t.pkCnt = 0
      ∧ t.statusPort = 0x00006300 ∧ t.errcmdPort = 0x0000 ∧ t.errLine = false
      ∧ t.cmdIn = s.cmdIn ∧ t.turns = ts

/-- R181: the frame's state is lost, nothing more of it is output, and the bytes not yet taken are discarded from
some cut point on: what the host holds is a prefix of the stream, at least as long as what it had taken. -/
def Obligations.ResetCutsTheOutputStream : Prop :=
  ∀ (s : State) (ts : List Turn), s.turns = .reset :: ts →
    ∃ t, step s = .next t ∧ t.withPortsOf State.reset = State.reset ∧ t.outQ = [] ∧ s.taken <+: t.taken ∧ t.taken <+: s.output

/-- The invariants of 10_state.md hold at reset. -/
def Obligations.ResetStateHasTheInvariants : Prop := State.reset.Inv

/-- R31 to R37: every step, from every state that has the invariants, gives a state that has them. -/
def Obligations.EveryStepKeepsTheInvariants : Prop :=
  ∀ s t : State, s.Inv → step s = .next t → t.Inv

/-! ## The step -/

/-- The word at the command port that decodes to a command is that command: a command turn consumes it and is
`exec` of it, unless flow control holds the word back, and then nothing but the turn is gone. -/
def Obligations.StepRunsTheDecodedCommand : Prop :=
  ∀ (s : State) (ts : List Turn) (w : Word) (rest : List Word) (i : Instr),
    commandTurnNext s ts → s.cmdIn = w :: rest → decode w = .ok i →
    step s =
      match exec i { s with turns := ts, cmdIn := rest } with
      | .next t => if accepts { s with turns := ts } t then .next t else .next { s with turns := ts }
      | .fault r => .fault r
      | .refused r => .refused r

/-- R173: with no word offered, nothing changes; R57, R189: a take turn moves the oldest byte to the host. -/
def Obligations.IdleTurnsAndTakes : Prop :=
  ∀ (s : State) (ts : List Turn),
    (commandTurnNext s ts → s.cmdIn = [] → step s = .next { s with turns := ts })
    ∧ (∀ b rest, s.turns = .take :: ts → s.outQ = b :: rest →
        step s = .next { s with turns := ts, outQ := rest, taken := s.taken ++ [b] })
    ∧ (s.turns = .take :: ts → s.outQ = [] → step s = .next { s with turns := ts })

/-- R142, R160: the data path has no failure; no state ends in a fault or a refusal. -/
def Obligations.NoStepFails : Prop := ∀ s : State, ∃ t, step s = .next t

/-- R188, R189: a host that goes on taking output gets the word at the port accepted: after one take for each
byte held and one command turn the word is consumed. -/
def Obligations.TakingOutputLetsTheNextWordIn : Prop :=
  ∀ (s : State) (w : Word) (rest : List Word), s.cmdIn = w :: rest →
    s.turns = List.replicate s.outQ.length .take ++ [.command] →
    ∃ t u, Sys2Proof.core.run (s.outQ.length + 1) s = .next t ∧ t.cmdIn = rest ∧ t.turns = []
      ∧ stepWord w { s with cmdIn := rest, turns := [], outQ := [], taken := s.output } = .next u ∧ t = u

/-- R189: the block never holds more than its output buffer does, in any state that has the invariants. The size,
261 bytes and some more, is the model's choice (log 5). -/
def Obligations.HeldOutputFitsTheBuffer : Prop :=
  ∀ s t : State, s.Inv → s.outQ.length ≤ 261 + Config.outputExtra → step s = .next t →
    t.outQ.length ≤ 261 + Config.outputExtra

/-- R52: no byte is dropped, duplicated or reordered: every step but a reset only appends to the stream. -/
def Obligations.OutputStreamOnlyGrows : Prop :=
  ∀ s t : State, step s = .next t → (∀ ts, s.turns ≠ .reset :: ts) → s.output <+: t.output

/-- R60, R52, R189: whatever the interleaving of command turns and takes, after any number of steps without a
reset the block is the fold of `Step` over the words accepted so far and the stream is that fold's stream. -/
def Obligations.FlowControlNeverChangesTheStream : Prop :=
  ∀ (k : Nat) (s t : State), Turn.reset ∉ s.turns → Sys2Proof.core.run k s = .next t →
    ∃ ws u, s.cmdIn = ws ++ t.cmdIn ∧ runWords ws s = .next u
      ∧ t.withPortsOf s = u.withPortsOf s ∧ t.output = u.output

/-- The word that `withFetchWord` places is what the next step runs, from any state: the model's own entry point
(log 2). -/
def Obligations.PlacedWordRunsNext : Prop :=
  ∀ (s : State) (w : Word),
    step (s.withFetchWord 16 w.toNat) = stepWord w { s with outQ := [], taken := s.output }

/-! ## The ports -/

/-- R28: the fields of STATUS, and its value in IDLE with no error. -/
def Obligations.StatusShowsItsFields : Prop :=
  ∀ s : State,
    (s.statusPort.extractLsb' 0 2 =
        match s.mode with | .idle => 0 | .packed => 1 | .raw => 2 | .direct => 3)
      ∧ (s.statusPort.extractLsb' 2 1 = BitVec.ofBool s.err)
      ∧ (s.statusPort.extractLsb' 3 3 =
        match s.cause with | .none => 0 | .illegalOpcode => 1 | .reservedBits => 2 | .modeViolation => 3)
      ∧ s.statusPort.extractLsb' 6 2 = 0
      ∧ s.statusPort.extractLsb' 8 4 = s.width
      ∧ s.statusPort.extractLsb' 12 13 = s.nextCode
      ∧ s.statusPort.extractLsb' 25 7 = 0
      ∧ (s.Inv → s.mode = .idle → s.err = false → s.statusPort = 0x00006300)

/-- R29, R166: ERRCMD is `errcmd`, 0 while no error is latched, and the `err` line is the latch. -/
def Obligations.ErrcmdPortAndErrLine : Prop :=
  ∀ s : State, s.errcmdPort = s.errcmd ∧ s.errLine = s.err ∧ (s.Inv → s.err = false → s.errcmdPort = 0)

/-! ## The commands -/

/-- R110: the word, START in IDLE, and its two errors. -/
def Obligations.StartOpensACompressorFrame : Prop :=
  (∀ raw : Bool, decode (if raw then 0x1001 else 0x1000) = .ok (.start raw))
    ∧ ∀ s : State, s.err = false →
      (∀ raw : Bool, s.mode = .idle → exec (.start raw) s = .next { s with
        mode := if raw then .raw else .packed
        table := [], nextCode := 6, width := 3, prefixCode := 0, havePrefix := false
        bitBuf := 4, bitCnt := 3, pkBuf := [] })
      ∧ (∀ raw : Bool, s.mode ≠ .idle →
        exec (.start raw) s = .next (latched .modeViolation (if raw then 0x1001 else 0x1000) s))
      ∧ (∀ w : Word, w.extractLsb' 12 4 = 1 → w.extractLsb' 8 4 ≠ 0 ∨ w.extractLsb' 1 7 ≠ 0 →
        stepWord w s = .next (latched .reservedBits w s))

/-- R111: the word, SYM as the first symbol of a frame, on a hit (also with a full table) and on a miss, and its
two errors. What a miss does (R108) is `MissLearnsOrResets`. -/
def Obligations.SymTakesOneSymbol : Prop :=
  (∀ x : Sym, decode (BitVec.ofNat 16 (0x2000 + x.toNat)) = .ok (.sym x))
    ∧ ∀ (s : State) (x : Sym), s.err = false →
      (s.mode = .packed ∨ s.mode = .raw → s.havePrefix = false →
        exec (.sym x) s = .next { s with prefixCode := x.setWidth 12, havePrefix := true })
      ∧ (∀ c, s.mode = .packed ∨ s.mode = .raw → s.havePrefix = true → lookup s.prefixCode x s.table = some c →
        exec (.sym x) s = .next { s with prefixCode := c })
      ∧ (s.mode = .packed ∨ s.mode = .raw → s.havePrefix = true → lookup s.prefixCode x s.table = none →
        exec (.sym x) s = .next (miss x s))
      ∧ (s.mode = .idle ∨ s.mode = .direct →
        exec (.sym x) s = .next (latched .modeViolation (BitVec.ofNat 16 (0x2000 + x.toNat)) s))
      ∧ (∀ w : Word, w.extractLsb' 12 4 = 2 → w.extractLsb' 8 4 ≠ 0 ∨ w.extractLsb' 2 6 ≠ 0 →
        stepWord w s = .next (latched .reservedBits w s))

/-- R108, R109, R117: a miss with room in the table emits the prefix at the current width, inserts the pair under
`nextCode` and grows the width when `nextCode` then exceeds `2^width`; a miss on the full table emits the prefix
and CLEAR at width 12, resets the table and makes no entry. Either way the symbol is the new prefix. `bs` are
the compressor bytes it drains, at most three (R116). -/
def Obligations.MissLearnsOrResets : Prop :=
  ∀ (s : State) (x : Sym), s.Inv → s.err = false → s.mode = .packed ∨ s.mode = .raw → s.havePrefix = true →
    lookup s.prefixCode x s.table = none →
    ∃ t bs, exec (.sym x) s = .next t ∧ bs.length ≤ 3 ∧ t.bitBuf.toNat < 2 ^ t.bitCnt.toNat
      ∧ (s.nextCode.toNat < 4096 →
        bytesBits bs ++ t.accBits = s.accBits ++ natBits s.width.toNat s.prefixCode.toNat
        ∧ t = { lzwOutAll bs s with
            table := ⟨s.prefixCode, x, s.nextCode.setWidth 12⟩ :: s.table
            nextCode := s.nextCode + 1
            width := if 2 ^ s.width.toNat < s.nextCode.toNat + 1 ∧ s.width.toNat < 12 then s.width + 1 else s.width
            prefixCode := x.setWidth 12
            bitBuf := t.bitBuf
            bitCnt := t.bitCnt })
      ∧ (s.nextCode = 4096 →
        bytesBits bs ++ t.accBits = s.accBits ++ natBits 12 s.prefixCode.toNat ++ natBits 12 4
        ∧ t = { lzwOutAll bs s with
            table := [], nextCode := 6, width := 3, prefixCode := x.setWidth 12
            bitBuf := t.bitBuf
            bitCnt := t.bitCnt })

/-- R112, R107: the word and the two errors of END, and its effect: it emits the final prefix, if any, and EOI at
the same width, pads the last byte with zeros, outputs the bytes (one to four, R116) straight, or through the
packer with its last chunk and terminator, marks the last byte, and leaves the IDLE values. -/
def Obligations.EndClosesTheCompressorFrame : Prop :=
  decode 0x3000 = .ok .endFrame
    ∧ ∀ s : State, s.err = false →
      (s.Inv → s.mode = .packed ∨ s.mode = .raw →
        ∃ t bs pad, exec .endFrame s = .next t
          ∧ bytesBits bs = s.accBits ++ (if s.havePrefix then natBits s.width.toNat s.prefixCode.toNat else [])
              ++ natBits s.width.toNat 5 ++ List.replicate pad false
          ∧ pad < 8 ∧ 1 ≤ bs.length ∧ bs.length ≤ 4
          ∧ t = { s with
              mode := .idle, table := [], nextCode := 6, width := 3, prefixCode := 0, havePrefix := false
              bitBuf := 0, bitCnt := 0, pkBuf := []
              outQ := s.outQ ++ asFrameOutput (if s.mode = .raw then bs else pack (s.pkBuf ++ bs)) })
      ∧ (s.mode = .idle ∨ s.mode = .direct → exec .endFrame s = .next (latched .modeViolation 0x3000 s))
      ∧ (∀ w : Word, w.extractLsb' 12 4 = 3 → w.extractLsb' 0 12 ≠ 0 →
        stepWord w s = .next (latched .reservedBits w s))

/-- R143: the word, PSTART in IDLE, and its two errors. -/
def Obligations.PstartOpensAPackerFrame : Prop :=
  decode 0x4000 = .ok .pstart
    ∧ ∀ s : State, s.err = false →
      (s.mode = .idle → exec .pstart s = .next { s with mode := .direct, pkBuf := [] })
      ∧ (s.mode ≠ .idle → exec .pstart s = .next (latched .modeViolation 0x4000 s))
      ∧ (∀ w : Word, w.extractLsb' 12 4 = 4 → w.extractLsb' 0 12 ≠ 0 →
        stepWord w s = .next (latched .reservedBits w s))

/-- R144, R140: the word and the two errors of PBYTE, and its effect: it keeps a byte in the chunk, and the 255th
sends the chunk out behind its length. -/
def Obligations.PbyteFillsTheChunk : Prop :=
  (∀ b : Byte, decode (BitVec.ofNat 16 (0x5000 + b.toNat)) = .ok (.pbyte b))
    ∧ ∀ (s : State) (b : Byte), s.err = false →
      (s.mode = .direct → s.pkCnt < 254 → exec (.pbyte b) s = .next { s with pkBuf := s.pkBuf ++ [b] })
      ∧ (s.mode = .direct → s.pkCnt = 254 → exec (.pbyte b) s =
          .next { s with pkBuf := [], outQ := s.outQ ++ plainBytes (0xFF :: s.pkBuf ++ [b]) })
      ∧ (s.mode ≠ .direct →
        exec (.pbyte b) s = .next (latched .modeViolation (BitVec.ofNat 16 (0x5000 + b.toNat)) s))
      ∧ (∀ w : Word, w.extractLsb' 12 4 = 5 → w.extractLsb' 8 4 ≠ 0 →
        stepWord w s = .next (latched .reservedBits w s))

/-- R145, R141: the word and the two errors of PEND, and its effect: the last partial chunk behind its length, if
there is one, then the marked terminator, and back to IDLE. -/
def Obligations.PendClosesThePackerFrame : Prop :=
  decode 0x6000 = .ok .pend
    ∧ ∀ s : State, s.err = false →
      (s.mode = .direct → s.pkCnt = 0 →
        exec .pend s = .next { s with mode := .idle, outQ := s.outQ ++ [⟨0x00, true⟩] })
      ∧ (s.mode = .direct → 0 < s.pkCnt → s.pkCnt ≤ 254 → exec .pend s = .next { s with
          mode := .idle
          pkBuf := []
          outQ := s.outQ ++ plainBytes (BitVec.ofNat 8 s.pkCnt :: s.pkBuf) ++ [⟨0x00, true⟩] })
      ∧ (s.mode ≠ .direct → exec .pend s = .next (latched .modeViolation 0x6000 s))
      ∧ (∀ w : Word, w.extractLsb' 12 4 = 6 → w.extractLsb' 0 12 ≠ 0 →
        stepWord w s = .next (latched .reservedBits w s))

/-! ## The primitives -/

/-- R105, R53: `EmitCode` appends the code's `width` bits to the stream, bit 0 first, drains every completed byte
through `LzwOut` and touches nothing else. -/
def Obligations.EmitCodeAppendsTheCodeBits : Prop :=
  ∀ (s : State) (c : Code), s.bitBuf.toNat < 2 ^ s.bitCnt.toNat → c.toNat < 2 ^ s.width.toNat →
    ∃ bs, bytesBits bs ++ (emitCode c s).accBits = s.accBits ++ natBits s.width.toNat c.toNat
      ∧ (emitCode c s).bitBuf.toNat < 2 ^ (emitCode c s).bitCnt.toNat
      ∧ emitCode c s = { lzwOutAll bs s with
          bitBuf := (emitCode c s).bitBuf, bitCnt := (emitCode c s).bitCnt }

/-- R102, R103: `Lookup` answers exactly the entries of a table that has the invariant, and after `Insert` the new
key has its code and every other key its old answer. -/
def Obligations.LookupAndInsertAreAPartialMap : Prop :=
  ∀ (n : Nat) (t : List Entry), TableInv n t →
    (∀ p x c, lookup p x t = some c ↔ ⟨p, x, c⟩ ∈ t)
    ∧ (∀ p x c, lookup p x t = none →
        lookup p x (insertEntry p x c t) = some c
        ∧ ∀ q y, ¬ (q = p ∧ y = x) → lookup q y (insertEntry p x c t) = lookup q y t)

/-- R114: every code that `EmitCode` receives fits the width, and the width is at most 12. -/
def Obligations.CodesFitTheWidth : Prop :=
  ∀ s : State, s.Inv →
    (s.havePrefix = true → s.prefixCode.toNat < 2 ^ s.width.toNat)
      ∧ Config.clear.toNat < 2 ^ s.width.toNat ∧ Config.eoi.toNat < 2 ^ s.width.toNat ∧ s.width.toNat ≤ 12

/-- R32: the width is a function of `nextCode`: 3 up to 8, else the least `k` with `nextCode <= 2^k`; so the table
of ranges. -/
def Obligations.WidthIsAFunctionOfNextCode : Prop :=
  ∀ s : State, s.Inv →
    (s.nextCode.toNat ≤ 8 → s.width = 3)
      ∧ (8 < s.nextCode.toNat → s.nextCode.toNat ≤ 2 ^ s.width.toNat
          ∧ ∀ k, s.nextCode.toNat ≤ 2 ^ k → s.width.toNat ≤ k)
      ∧ s.nextCode.toNat ≤ 2 ^ s.width.toNat ∧ s.width.toNat ≤ 12
      ∧ (∀ k, 3 ≤ k → k ≤ 11 → 2 ^ k < s.nextCode.toNat → s.nextCode.toNat ≤ 2 ^ (k + 1) → s.width.toNat = k + 1)

/-- R33: the table holds exactly `nextCode - 6` entries with the codes 6 to `nextCode - 1`, each once, and no key
twice; so at most 4090 (R115). -/
def Obligations.TableHoldsEachCodeOnce : Prop :=
  ∀ s : State, s.Inv →
    s.table.length = s.nextCode.toNat - 6 ∧ s.table.length ≤ 4090
      ∧ (∀ c : Nat, 6 ≤ c → c < s.nextCode.toNat → ∃ e ∈ s.table, e.code.toNat = c
          ∧ ∀ f ∈ s.table, f.code.toNat = c → f = e)
      ∧ (∀ e ∈ s.table, 6 ≤ e.code.toNat ∧ e.code.toNat < s.nextCode.toNat ∧ e.pfx.toNat < s.nextCode.toNat
          ∧ e.pfx ≠ 4 ∧ e.pfx ≠ 5)
      ∧ (∀ e ∈ s.table, ∀ f ∈ s.table, e.pfx = f.pfx → e.sym = f.sym → e = f)

/-! ## Whole-machine rules -/

/-- R21, R168: only START, END, PSTART and PEND change the mode, each in one way; an error leaves it. -/
def Obligations.OnlyFrameCommandsChangeTheMode : Prop :=
  ∀ (i : Instr) (s t : State), exec i s = .next t → t.mode ≠ s.mode →
    t.err = false ∧
      ((∃ raw, i = .start raw ∧ s.mode = .idle ∧ t.mode = if raw then .raw else .packed)
        ∨ (i = .pstart ∧ s.mode = .idle ∧ t.mode = .direct)
        ∨ (i = .endFrame ∧ (s.mode = .packed ∨ s.mode = .raw) ∧ t.mode = .idle)
        ∨ (i = .pend ∧ s.mode = .direct ∧ t.mode = .idle))

/-- R31: apart from the latch the IDLE state is unique. -/
def Obligations.IdleStateIsUnique : Prop :=
  ∀ s t : State, s.Inv → t.Inv → s.mode = .idle → t.mode = .idle →
    { t with err := s.err, cause := s.cause, errcmd := s.errcmd }.withPortsOf s = s

/-- R58: an END or PEND that takes effect outputs at least one byte and marks exactly its last; no other command
marks any byte. -/
def Obligations.LastMarkOnExactlyTheLastByte : Prop :=
  ∀ (i : Instr) (s t : State), s.Inv → s.err = false → exec i s = .next t →
    ∃ new, t.outQ = s.outQ ++ new ∧
      if (i = .endFrame ∨ i = .pend) ∧ t.err = false then
        ∃ bs b, new = plainBytes bs ++ [⟨b, true⟩]
      else ∃ bs, new = plainBytes bs

/-- R148: how many bytes a command in a legal mode puts on the output port. -/
def Obligations.OutputBoundsPerCommand : Prop :=
  ∀ (i : Instr) (s t : State), s.Inv → s.err = false → exec i s = .next t → t.err = false →
    ∃ n, t.outQ.length = s.outQ.length + n ∧
      match i with
      | .start _ => n = 0
      | .sym _ => (s.mode = .raw → n ≤ 3) ∧ (s.mode = .packed → n = 0 ∨ n = 256)
      | .endFrame => (s.mode = .raw → 1 ≤ n ∧ n ≤ 4) ∧ (s.mode = .packed → 3 ≤ n ∧ n ≤ 261)
      | .pstart => n = 0
      | .pbyte _ => n = 0 ∨ n = 256
      | .pend => 1 ≤ n ∧ n ≤ 256

/-- R60, R118: what a word does to the block, and the bytes it outputs, depend on the block and the word alone:
not on earlier output, on what the host has taken, or on what is offered next. -/
def Obligations.StepDependsOnTheBlockAlone : Prop :=
  ∀ (w : Word) (s p t : State), stepWord w s = .next t →
    ∃ u new, stepWord w (s.withPortsOf p) = .next u ∧ u.withPortsOf s = t.withPortsOf s
      ∧ t.outQ = s.outQ ++ new ∧ u.outQ = p.outQ ++ new
      ∧ u.cmdIn = p.cmdIn ∧ u.turns = p.turns ∧ u.taken = p.taken ∧ u.draws = p.draws

/-! ## Whole frames -/

/-- R113: from any IDLE state with no error, a RAW frame outputs exactly `LZW(x)`, and a PACKED frame exactly
`Pack(LZW(x))`, the last byte marked; both end in IDLE with the reset values of every other element. -/
def Obligations.CompressorFrameOutputsLzw : Prop :=
  ∀ (s : State) (raw : Bool) (xs : List Sym), s.Inv → s.err = false → s.mode = .idle →
    runWords (frameWords raw xs) s = .next { s with
      mode := .idle, table := [], nextCode := 6, width := 3, prefixCode := 0, havePrefix := false
      bitBuf := 0, bitCnt := 0, pkBuf := []
      outQ := s.outQ ++ asFrameOutput (if raw then lzw xs else pack (lzw xs)) }

/-- R146: from IDLE with no error, a packer frame outputs exactly `Pack(y)` and ends in IDLE. -/
def Obligations.PackerFrameOutputsPack : Prop :=
  ∀ (s : State) (ys : List Byte), s.err = false → s.mode = .idle →
    runWords (packerWords ys) s = .next { s with mode := .idle, pkBuf := [], outQ := s.outQ ++ asFrameOutput (pack ys) }

/-- R113, R190: frames are independent; the output of a sequence of frames is the concatenation of theirs, and the
run ends in IDLE with no error. -/
def Obligations.FrameSequenceConcatenates : Prop :=
  ∀ (s : State) (fs : List Frame), s.Inv → s.err = false → s.mode = .idle →
    runWords (fs.flatMap wordsOf) s = .next { s with
      outQ := s.outQ ++ fs.flatMap fun f => asFrameOutput (bytesOf f) }

/-- R190: any sequence of frames can be sent through the real step, with the host taking every byte, from any IDLE
state with no error; the run then succeeded and the host holds the concatenated output, behind what it held before:
that an observation spans resets, and so starts with all of `s.output`, is the model's choice (log 19). -/
def Obligations.EveryFrameSequenceCanSucceed : Prop :=
  ∀ (s : State) (fs : List Frame), s.Inv → s.err = false → s.mode = .idle → s.cmdIn = fs.flatMap wordsOf →
    ∃ ts t, Sys2Proof.core.run ts.length { s with turns := ts } = .next t ∧ t.Succeeded
      ∧ t.observe = ⟨s.output ++ fs.flatMap (fun f => asFrameOutput (bytesOf f)), 0x00006300, 0⟩

/-- R147: the length of `Pack(y)`, and of its chunks. -/
def Obligations.PackLengthLaw : Prop :=
  ∀ y : List Byte,
    (pack y).length = y.length + (y.length + 254) / 255 + 1
      ∧ ∀ j < (y.length + 254) / 255, (chunkOf y j).length =
          if j + 1 < (y.length + 254) / 255 then 255 else y.length - 255 * ((y.length - 1) / 255)

/-- R149: a reader recovers `y` and finds the end, whatever bytes `y` holds and whatever follows. -/
def Obligations.ReaderRecoversPackedBytes : Prop :=
  ∀ y z : List Byte, unpack (pack y ++ z) = some (y, z)

/-! ## The assembler -/

/-- R78: the words of the assembler's lines; a number out of range is refused, not truncated. -/
def Obligations.AssemblerWordsAndRefusals : Prop :=
  assembleLine (.start false) = some [0x1000] ∧ assembleLine (.start true) = some [0x1001]
    ∧ (∀ n, assembleLine (.sym n) = if n ≤ 3 then some [BitVec.ofNat 16 (0x2000 + n)] else none)
    ∧ assembleLine .endFrame = some [0x3000] ∧ assembleLine .pstart = some [0x4000]
    ∧ (∀ v, assembleLine (.pbyte v) = if v ≤ 255 then some [BitVec.ofNat 16 (0x5000 + v)] else none)
    ∧ assembleLine .pend = some [0x6000]
    ∧ (∀ h, assembleLine (.word h) = if h ≤ 0xFFFF then some [BitVec.ofNat 16 h] else none)

/-- R79: each pseudo-instruction expands to its opening command, one command a number, and its closing command. -/
def Obligations.PseudoInstructionsExpand : Prop :=
  ∀ ns : List Nat,
    ((∀ n ∈ ns, n ≤ 3) →
      assembleLine (.frame ns) = some (0x1000 :: ns.map (fun n => BitVec.ofNat 16 (0x2000 + n)) ++ [0x3000])
      ∧ assembleLine (.rawFrame ns) = some (0x1001 :: ns.map (fun n => BitVec.ofNat 16 (0x2000 + n)) ++ [0x3000]))
    ∧ ((∀ n ∈ ns, n ≤ 255) →
      assembleLine (.pblock ns) = some (0x4000 :: ns.map (fun n => BitVec.ofNat 16 (0x5000 + n)) ++ [0x6000]))

/-- Case is ignored on the whole line, and `;` begins a comment. R78 says so of mnemonics and of comments; that the
operands (PACKED, RAW, the 0x and the digits of a number) and the names of R79 do too is the model's (log 12). -/
def Obligations.WrittenLinesIgnoreCaseAndComments : Prop :=
  (∀ cs : List Char, assembleText (cs.map Char.toUpper) = assembleText cs)
    ∧ ∀ cs ds : List Char, ';' ∉ cs → assembleText (cs ++ ';' :: ds) = assembleText cs
end

