-- ==== Sys2Proof/Laws/Bits.lean ====
section
/-! SUPPORT. Laws of bit strings: cutting and joining (R53), bytes to bits and back (R113). -/

namespace Sys2Proof.Machine

@[simp] theorem length_natBits (w n : Nat) : (natBits w n).length = w := by simp [natBits]

@[simp] theorem natBits_zero (n : Nat) : natBits 0 n = [] := rfl

/-- The bits of a number cut in two. -/
theorem natBits_add (a b n : Nat) : natBits (a + b) n = natBits a n ++ natBits b (n >>> a) := by
  simp [natBits, List.range_add, Nat.testBit_shiftRight, Function.comp_def]

theorem natBits_congr {w m n : Nat} (h : ∀ j < w, m.testBit j = n.testBit j) : natBits w m = natBits w n := by
  simpa [natBits] using h

/-- The low bits do not see what is shifted above them. -/
theorem natBits_or_shiftLeft (k x c : Nat) : natBits k (x ||| c <<< k) = natBits k x := by
  refine natBits_congr fun j hj => ?_
  simp [Nat.testBit_or, Nat.testBit_shiftLeft, Nat.not_le.mpr hj]

/-- What is above a short number comes back whole. -/
theorem or_shiftLeft_shiftRight {k x : Nat} (c : Nat) (h : x < 2 ^ k) : (x ||| c <<< k) >>> k = c := by
  refine Nat.eq_of_testBit_eq fun j => ?_
  have hx : x.testBit (k + j) = false :=
    Nat.testBit_lt_two_pow (Nat.lt_of_lt_of_le h (Nat.pow_le_pow_right (by decide) (Nat.le_add_right k j)))
  simp [Nat.testBit_shiftRight, Nat.testBit_or, hx, Nat.testBit_shiftLeft]

/-- Joining two numbers joins their bits. -/
theorem natBits_join {k x : Nat} (w c : Nat) (h : x < 2 ^ k) :
    natBits (k + w) (x ||| c <<< k) = natBits k x ++ natBits w c := by
  rw [natBits_add, natBits_or_shiftLeft, or_shiftLeft_shiftRight c h]

theorem or_shiftLeft_lt {k w x c : Nat} (hx : x < 2 ^ k) (hc : c < 2 ^ w) : x ||| c <<< k < 2 ^ (k + w) := by
  refine Nat.or_lt_two_pow (Nat.lt_of_lt_of_le hx (Nat.pow_le_pow_right (by decide) (Nat.le_add_right k w))) ?_
  rw [Nat.shiftLeft_eq, Nat.pow_add, Nat.mul_comm]
  exact Nat.mul_lt_mul_of_pos_left hc (Nat.two_pow_pos k)

theorem natBits_mod {w m : Nat} (n : Nat) (h : w ≤ m) : natBits w (n % 2 ^ m) = natBits w n := by
  refine natBits_congr fun j hj => ?_
  simp [Nat.testBit_mod_two_pow, Nat.lt_of_lt_of_le hj h]

theorem natBits_eq_replicate {w r n : Nat} (h : n < 2 ^ r) : natBits w (n >>> r) = List.replicate w false := by
  rw [Nat.shiftRight_eq_div_pow, Nat.div_eq_of_lt h]
  simp [natBits, List.eq_replicate_iff]

theorem natBits_append_zeros {r w n : Nat} (h : n < 2 ^ r) :
    natBits (r + w) n = natBits r n ++ List.replicate w false := by
  rw [natBits_add, natBits_eq_replicate h]

@[simp] theorem bytesBits_nil : bytesBits [] = [] := rfl

@[simp] theorem bytesBits_cons (b : Byte) (bs : List Byte) :
    bytesBits (b :: bs) = natBits 8 b.toNat ++ bytesBits bs := by simp [bytesBits]

@[simp] theorem bytesBits_append (as bs : List Byte) : bytesBits (as ++ bs) = bytesBits as ++ bytesBits bs := by
  simp [bytesBits]

@[simp] theorem length_bytesBits (bs : List Byte) : (bytesBits bs).length = 8 * bs.length := by
  induction bs with
  | nil => rfl
  | cons b bs ih => simp [ih]; omega

/-! ## Back to numbers and bytes -/

theorem natBits_succ (w n : Nat) : natBits (w + 1) n = n.testBit 0 :: natBits w (n / 2) := by
  rw [Nat.add_comm, natBits_add]
  simp [natBits, Nat.shiftRight_eq_div_pow]

theorem bitsToNat_natBits (w n : Nat) : bitsToNat (natBits w n) = n % 2 ^ w := by
  induction w generalizing n with
  | zero => simp [bitsToNat, Nat.mod_one]
  | succ w ih =>
    rw [natBits_succ, bitsToNat, ih, Nat.testBit_zero, Nat.pow_succ', Nat.mod_mul]
    rcases Nat.mod_two_eq_zero_or_one n with h | h <;> simp [h]

@[simp] theorem bitsToBytes_nil : bitsToBytes [] = [] := rfl

/-- A whole byte at the front comes out first. -/
theorem bitsToBytes_byte (b : Byte) (bits : List Bool) :
    bitsToBytes (natBits 8 b.toNat ++ bits) = b :: bitsToBytes bits := by
  have hl : (bits.length + 8 + 7) / 8 = (bits.length + 7) / 8 + 1 := by omega
  have hb : BitVec.ofNat 8 (bitsToNat (natBits 8 b.toNat)) = b := by
    rw [bitsToNat_natBits, Nat.mod_eq_of_lt b.isLt]; simp
  simp only [bitsToBytes, List.length_append, length_natBits, Nat.add_comm 8, hl, List.range_succ_eq_map,
    List.map_cons, List.map_map, List.cons.injEq]
  refine ⟨by simpa using hb, List.map_congr_left fun j _ => ?_⟩
  have : 8 * (j + 1) = 8 + 8 * j := by omega
  simp [this, ← List.drop_drop, List.drop_left' (length_natBits 8 b.toNat)]

theorem bitsToBytes_bytes (bs : List Byte) (bits : List Bool) :
    bitsToBytes (bytesBits bs ++ bits) = bs ++ bitsToBytes bits := by
  induction bs with
  | nil => rfl
  | cons b bs ih => simp [List.append_assoc, bitsToBytes_byte, ih]

/-- Bits that fill no byte come out as one byte padded with zeros (R107, R113). -/
theorem bitsToBytes_short {r n : Nat} (h0 : 0 < r) (h8 : r < 8) (hn : n < 2 ^ r) :
    bitsToBytes (natBits r n) = [BitVec.ofNat 8 n] := by
  have hl : (r + 7) / 8 = 1 := by omega
  simp [bitsToBytes, hl, List.take_of_length_le (show (natBits r n).length ≤ 8 by simp; omega),
    bitsToNat_natBits, Nat.mod_eq_of_lt hn]

/-! ## The bytes that leave the accumulator -/

/-- The `n` low bytes of a number, lowest first: what `n` turns of `EmitCode`'s loop put out (R105). -/
def lowBytes : Nat → Nat → List Byte
  | 0, _ => []
  | n + 1, acc => BitVec.ofNat 8 acc :: lowBytes n (acc >>> 8)

@[simp] theorem length_lowBytes (n acc : Nat) : (lowBytes n acc).length = n := by
  induction n generalizing acc with
  | zero => rfl
  | succ n ih => simp [lowBytes, ih]

theorem bytesBits_lowBytes (n acc : Nat) : bytesBits (lowBytes n acc) = natBits (8 * n) acc := by
  induction n generalizing acc with
  | zero => rfl
  | succ n ih =>
    rw [lowBytes, bytesBits_cons, ih, Nat.mul_succ, Nat.add_comm, natBits_add]
    rw [BitVec.toNat_ofNat, natBits_mod acc (Nat.le_refl 8)]

end Sys2Proof.Machine
end

