-- ==== Sys2Proof/Laws/Decode.lean ====
section
/-! SUPPORT. Laws of decoding: a word is its three fields, and what the decoder answers by opcode (R70 to R76). -/

namespace Sys2Proof

/-- The word with the fields OP, RSV and OPD (R70). -/
def ofFields (op rsv : BitVec 4) (opd : Byte) : Word := op ++ rsv ++ opd

theorem ofFields_bit (op rsv : BitVec 4) (opd : Byte) (i : Nat) : (ofFields op rsv opd).getLsbD i =
    if i < 8 then opd.getLsbD i else if i - 8 < 4 then rsv.getLsbD (i - 8) else op.getLsbD (i - 8 - 4) := by
  unfold ofFields
  rw [BitVec.getLsbD_append, BitVec.getLsbD_append]

/-- Every word is its fields. -/
theorem ofFields_fields (w : Word) : ofFields (fieldOp w) (fieldRsv w) (fieldOpd w) = w := by
  refine BitVec.eq_of_getLsbD_eq fun i hi => ?_
  rw [ofFields_bit]
  unfold fieldOp fieldRsv fieldOpd
  simp only [BitVec.getLsbD_extractLsb']
  split_ifs with h1 h2
  · simp [h1]
  · simp [h2, show 8 + (i - 8) = i by omega]
  · simp [show i - 8 - 4 < 4 by omega, show 12 + (i - 8 - 4) = i by omega]

@[simp] theorem fieldOp_ofFields (op rsv : BitVec 4) (opd : Byte) : fieldOp (ofFields op rsv opd) = op := by
  refine BitVec.eq_of_getLsbD_eq fun i hi => ?_
  unfold fieldOp
  rw [BitVec.getLsbD_extractLsb', ofFields_bit, if_neg (by omega), if_neg (by omega)]
  simp [hi, show 12 + i - 8 - 4 = i by omega]

@[simp] theorem fieldRsv_ofFields (op rsv : BitVec 4) (opd : Byte) : fieldRsv (ofFields op rsv opd) = rsv := by
  refine BitVec.eq_of_getLsbD_eq fun i hi => ?_
  unfold fieldRsv
  rw [BitVec.getLsbD_extractLsb', ofFields_bit, if_neg (by omega), if_pos (by omega)]
  simp [hi]

@[simp] theorem fieldOpd_ofFields (op rsv : BitVec 4) (opd : Byte) : fieldOpd (ofFields op rsv opd) = opd := by
  refine BitVec.eq_of_getLsbD_eq fun i hi => ?_
  unfold fieldOpd
  rw [BitVec.getLsbD_extractLsb', ofFields_bit, if_pos (by omega)]
  simp [hi]

/-- Masking a word masks its fields. -/
theorem ofFields_and (a a' r r' : BitVec 4) (d d' : Byte) :
    ofFields a r d &&& ofFields a' r' d' = ofFields (a &&& a') (r &&& r') (d &&& d') := by
  refine BitVec.eq_of_getLsbD_eq fun i _ => ?_
  simp only [BitVec.getLsbD_and, ofFields_bit]
  split_ifs <;> rfl

/-- Two words are equal when their fields are. -/
theorem ofFields_inj {a a' r r' : BitVec 4} {d d' : Byte} :
    ofFields a r d = ofFields a' r' d' ↔ a = a' ∧ r = r' ∧ d = d' := by
  refine ⟨fun h => ⟨?_, ?_, ?_⟩, fun ⟨h1, h2, h3⟩ => by rw [h1, h2, h3]⟩
  · simpa using congrArg fieldOp h
  · simpa using congrArg fieldRsv h
  · simpa using congrArg fieldOpd h

/-- The answer of the decoder on a word given by its fields: the checks of R76 in their order. -/
theorem decode_ofFields (op rsv : BitVec 4) (opd : Byte) :
    decode (ofFields op rsv opd) =
      match reservedMask op, commandOf op opd with
      | some mask, some i => if rsv ≠ 0 ∨ opd &&& mask ≠ 0 then .error .reservedBits else .ok i
      | _, _ => .error .illegalOpcode := by
  unfold decode
  rw [fieldOp_ofFields, fieldRsv_ofFields, fieldOpd_ofFields] <;> rfl

/-- The six opcodes, and no other, have a mask and a command (R73). -/
theorem opcode_cases (op : BitVec 4) : op = 1 ∨ op = 2 ∨ op = 3 ∨ op = 4 ∨ op = 5 ∨ op = 6
    ∨ (reservedMask op = none ∧ ∀ d, commandOf op d = none) := by
  unfold reservedMask commandOf
  by_cases h1 : op = 1; · simp [h1]
  by_cases h2 : op = 2; · simp [h2]
  by_cases h3 : op = 3; · simp [h3]
  by_cases h4 : op = 4; · simp [h4]
  by_cases h5 : op = 5; · simp [h5]
  by_cases h6 : op = 6; · simp [h6]
  simp_all

theorem commandOf_isSome {op : BitVec 4} {mask : Byte} (d : Byte) (h : reservedMask op = some mask) :
    ∃ i, commandOf op d = some i := by
  rcases opcode_cases op with rfl | rfl | rfl | rfl | rfl | rfl | ⟨h', -⟩
  · exact ⟨_, rfl⟩
  · exact ⟨_, rfl⟩
  · exact ⟨_, rfl⟩
  · exact ⟨_, rfl⟩
  · exact ⟨_, rfl⟩
  · exact ⟨_, rfl⟩
  · simp [h] at h'

/-- When the decoder answers a command (R72, R76). -/
theorem decode_ok_iff {op r : BitVec 4} {d : Byte} {i : Instr} : decode (ofFields op r d) = .ok i ↔
    r = 0 ∧ ∃ mask, reservedMask op = some mask ∧ d &&& mask = 0 ∧ commandOf op d = some i := by
  rw [decode_ofFields]
  cases hm : reservedMask op with
  | none => simp
  | some mask =>
    obtain ⟨j, hj⟩ := commandOf_isSome d hm
    by_cases h : r ≠ 0 ∨ d &&& mask ≠ 0
    · simp only [hj, if_pos h]
      refine ⟨fun e => by simp at e, fun ⟨hr, m, hm', hd, _⟩ => ?_⟩
      cases Option.some.inj hm'
      exact absurd h (by simp [hr, hd])
    · simp only [hj, if_neg h]
      simp only [ne_eq, not_or, not_not] at h
      simp [h]

/-- When it answers RESERVED_BITS (R74). -/
theorem decode_reserved_iff {op r : BitVec 4} {d : Byte} : decode (ofFields op r d) = .error .reservedBits ↔
    ∃ mask, reservedMask op = some mask ∧ (r ≠ 0 ∨ d &&& mask ≠ 0) := by
  rw [decode_ofFields]
  cases hm : reservedMask op with
  | none => simp
  | some mask =>
    obtain ⟨j, hj⟩ := commandOf_isSome d hm
    by_cases h : r ≠ 0 ∨ d &&& mask ≠ 0
    · simp only [hj, if_pos h, true_iff]
      exact ⟨mask, rfl, h⟩
    · simp only [hj, if_neg h]
      refine ⟨fun e => by simp at e, fun ⟨m, hm', h'⟩ => ?_⟩
      cases Option.some.inj hm'
      exact absurd h' h

/-- When it answers ILLEGAL_OPCODE (R75). -/
theorem decode_illegal_iff {op r : BitVec 4} {d : Byte} : decode (ofFields op r d) = .error .illegalOpcode ↔
    reservedMask op = none := by
  rw [decode_ofFields]
  cases hm : reservedMask op with
  | none => simp
  | some mask =>
    obtain ⟨j, hj⟩ := commandOf_isSome d hm
    simp only [hj]
    split <;> simp

end Sys2Proof
end

