-- ==== Sys2Proof/Laws/State.lean ====
section
/-! SUPPORT. One lemma per field per update of the state: what an operation that is a plain update does to each field. -/

namespace Sys2Proof.Machine

variable (s t : State) (bs : List Byte) (c : Cause) (cmd : Word)

/-! `outAll`: appends to the output. -/

@[simp] theorem outAll_mode : (outAll bs s).mode = s.mode := rfl
@[simp] theorem outAll_err : (outAll bs s).err = s.err := rfl
@[simp] theorem outAll_cause : (outAll bs s).cause = s.cause := rfl
@[simp] theorem outAll_errcmd : (outAll bs s).errcmd = s.errcmd := rfl
@[simp] theorem outAll_table : (outAll bs s).table = s.table := rfl
@[simp] theorem outAll_nextCode : (outAll bs s).nextCode = s.nextCode := rfl
@[simp] theorem outAll_width : (outAll bs s).width = s.width := rfl
@[simp] theorem outAll_prefixCode : (outAll bs s).prefixCode = s.prefixCode := rfl
@[simp] theorem outAll_havePrefix : (outAll bs s).havePrefix = s.havePrefix := rfl
@[simp] theorem outAll_bitBuf : (outAll bs s).bitBuf = s.bitBuf := rfl
@[simp] theorem outAll_bitCnt : (outAll bs s).bitCnt = s.bitCnt := rfl
@[simp] theorem outAll_pkBuf : (outAll bs s).pkBuf = s.pkBuf := rfl
@[simp] theorem outAll_cmdIn : (outAll bs s).cmdIn = s.cmdIn := rfl
@[simp] theorem outAll_turns : (outAll bs s).turns = s.turns := rfl
@[simp] theorem outAll_outQ : (outAll bs s).outQ = s.outQ ++ bs.map fun b => ⟨b, false⟩ := rfl
@[simp] theorem outAll_taken : (outAll bs s).taken = s.taken := rfl
@[simp] theorem outAll_draws : (outAll bs s).draws = s.draws := rfl

/-! `raiseError`: sets the latch. -/

@[simp] theorem raiseError_mode : (raiseError c cmd s).mode = s.mode := rfl
@[simp] theorem raiseError_err : (raiseError c cmd s).err = true := rfl
@[simp] theorem raiseError_cause : (raiseError c cmd s).cause = c := rfl
@[simp] theorem raiseError_errcmd : (raiseError c cmd s).errcmd = cmd := rfl
@[simp] theorem raiseError_table : (raiseError c cmd s).table = s.table := rfl
@[simp] theorem raiseError_nextCode : (raiseError c cmd s).nextCode = s.nextCode := rfl
@[simp] theorem raiseError_width : (raiseError c cmd s).width = s.width := rfl
@[simp] theorem raiseError_prefixCode : (raiseError c cmd s).prefixCode = s.prefixCode := rfl
@[simp] theorem raiseError_havePrefix : (raiseError c cmd s).havePrefix = s.havePrefix := rfl
@[simp] theorem raiseError_bitBuf : (raiseError c cmd s).bitBuf = s.bitBuf := rfl
@[simp] theorem raiseError_bitCnt : (raiseError c cmd s).bitCnt = s.bitCnt := rfl
@[simp] theorem raiseError_pkBuf : (raiseError c cmd s).pkBuf = s.pkBuf := rfl
@[simp] theorem raiseError_cmdIn : (raiseError c cmd s).cmdIn = s.cmdIn := rfl
@[simp] theorem raiseError_turns : (raiseError c cmd s).turns = s.turns := rfl
@[simp] theorem raiseError_outQ : (raiseError c cmd s).outQ = s.outQ := rfl
@[simp] theorem raiseError_taken : (raiseError c cmd s).taken = s.taken := rfl
@[simp] theorem raiseError_draws : (raiseError c cmd s).draws = s.draws := rfl

/-! `resetTable`: empties the table. -/

@[simp] theorem resetTable_mode : (resetTable s).mode = s.mode := rfl
@[simp] theorem resetTable_err : (resetTable s).err = s.err := rfl
@[simp] theorem resetTable_cause : (resetTable s).cause = s.cause := rfl
@[simp] theorem resetTable_errcmd : (resetTable s).errcmd = s.errcmd := rfl
@[simp] theorem resetTable_table : (resetTable s).table = [] := rfl
@[simp] theorem resetTable_nextCode : (resetTable s).nextCode = 6 := rfl
@[simp] theorem resetTable_width : (resetTable s).width = 3 := rfl
@[simp] theorem resetTable_prefixCode : (resetTable s).prefixCode = s.prefixCode := rfl
@[simp] theorem resetTable_havePrefix : (resetTable s).havePrefix = s.havePrefix := rfl
@[simp] theorem resetTable_bitBuf : (resetTable s).bitBuf = s.bitBuf := rfl
@[simp] theorem resetTable_bitCnt : (resetTable s).bitCnt = s.bitCnt := rfl
@[simp] theorem resetTable_pkBuf : (resetTable s).pkBuf = s.pkBuf := rfl
@[simp] theorem resetTable_cmdIn : (resetTable s).cmdIn = s.cmdIn := rfl
@[simp] theorem resetTable_turns : (resetTable s).turns = s.turns := rfl
@[simp] theorem resetTable_outQ : (resetTable s).outQ = s.outQ := rfl
@[simp] theorem resetTable_taken : (resetTable s).taken = s.taken := rfl
@[simp] theorem resetTable_draws : (resetTable s).draws = s.draws := rfl

/-! `assertReset`: every element of the block at its reset value. -/

@[simp] theorem assertReset_mode : (assertReset s).mode = .idle := rfl
@[simp] theorem assertReset_err : (assertReset s).err = false := rfl
@[simp] theorem assertReset_cause : (assertReset s).cause = .none := rfl
@[simp] theorem assertReset_errcmd : (assertReset s).errcmd = 0 := rfl
@[simp] theorem assertReset_table : (assertReset s).table = [] := rfl
@[simp] theorem assertReset_nextCode : (assertReset s).nextCode = 6 := rfl
@[simp] theorem assertReset_width : (assertReset s).width = 3 := rfl
@[simp] theorem assertReset_prefixCode : (assertReset s).prefixCode = 0 := rfl
@[simp] theorem assertReset_havePrefix : (assertReset s).havePrefix = false := rfl
@[simp] theorem assertReset_bitBuf : (assertReset s).bitBuf = 0 := rfl
@[simp] theorem assertReset_bitCnt : (assertReset s).bitCnt = 0 := rfl
@[simp] theorem assertReset_pkBuf : (assertReset s).pkBuf = [] := rfl
@[simp] theorem assertReset_cmdIn : (assertReset s).cmdIn = s.cmdIn := rfl
@[simp] theorem assertReset_turns : (assertReset s).turns = s.turns := rfl
@[simp] theorem assertReset_outQ : (assertReset s).outQ = [] := rfl
@[simp] theorem assertReset_taken : (assertReset s).taken = s.taken ++ s.outQ.take (Config.resetCut s.draws) := rfl
@[simp] theorem assertReset_draws : (assertReset s).draws = s.draws + 1 := rfl

/-! `State.withPortsOf`: the block of the one, the ports of the other. -/

@[simp] theorem withPortsOf_mode : (t.withPortsOf s).mode = t.mode := rfl
@[simp] theorem withPortsOf_err : (t.withPortsOf s).err = t.err := rfl
@[simp] theorem withPortsOf_cause : (t.withPortsOf s).cause = t.cause := rfl
@[simp] theorem withPortsOf_errcmd : (t.withPortsOf s).errcmd = t.errcmd := rfl
@[simp] theorem withPortsOf_table : (t.withPortsOf s).table = t.table := rfl
@[simp] theorem withPortsOf_nextCode : (t.withPortsOf s).nextCode = t.nextCode := rfl
@[simp] theorem withPortsOf_width : (t.withPortsOf s).width = t.width := rfl
@[simp] theorem withPortsOf_prefixCode : (t.withPortsOf s).prefixCode = t.prefixCode := rfl
@[simp] theorem withPortsOf_havePrefix : (t.withPortsOf s).havePrefix = t.havePrefix := rfl
@[simp] theorem withPortsOf_bitBuf : (t.withPortsOf s).bitBuf = t.bitBuf := rfl
@[simp] theorem withPortsOf_bitCnt : (t.withPortsOf s).bitCnt = t.bitCnt := rfl
@[simp] theorem withPortsOf_pkBuf : (t.withPortsOf s).pkBuf = t.pkBuf := rfl
@[simp] theorem withPortsOf_cmdIn : (t.withPortsOf s).cmdIn = s.cmdIn := rfl
@[simp] theorem withPortsOf_turns : (t.withPortsOf s).turns = s.turns := rfl
@[simp] theorem withPortsOf_outQ : (t.withPortsOf s).outQ = s.outQ := rfl
@[simp] theorem withPortsOf_taken : (t.withPortsOf s).taken = s.taken := rfl
@[simp] theorem withPortsOf_draws : (t.withPortsOf s).draws = s.draws := rfl

end Sys2Proof.Machine
end

