-- ==== Sys2Proof/Laws/Ops.lean ====
section
/-! SUPPORT. One lemma for each shared operation that says everything it does: the packer, the routing of compressor bytes, the accumulator, the code table, the marks, and the check before a command. -/

namespace Sys2Proof.Machine

/-- Bytes as the output port carries them before any mark (R58). -/
def unmarked (bs : List Byte) : List OutByte := bs.map fun b => ⟨b, false⟩

@[simp] theorem unmarked_nil : unmarked [] = [] := rfl

@[simp] theorem unmarked_cons (b : Byte) (bs : List Byte) : unmarked (b :: bs) = ⟨b, false⟩ :: unmarked bs := rfl

@[simp] theorem unmarked_append (as bs : List Byte) : unmarked (as ++ bs) = unmarked as ++ unmarked bs := by
  simp [unmarked]

@[simp] theorem length_unmarked (bs : List Byte) : (unmarked bs).length = bs.length := by simp [unmarked]

@[simp] theorem data_unmarked (bs : List Byte) : (unmarked bs).map OutByte.data = bs := by
  simp [unmarked, Function.comp_def]

theorem outAll_eq (bs : List Byte) (s : State) : outAll bs s = { s with outQ := s.outQ ++ unmarked bs } := rfl

/-! ## The packer as a function of its chunk -/

/-- What `PackByte(b)` outputs and leaves in the chunk `c` (R140). -/
def packStep (c : List Byte) (b : Byte) : List Byte × List Byte :=
  if c.length = 254 then (255 :: (c ++ [b]), []) else ([], c ++ [b])

/-- The same for a byte sequence. -/
def packAll : List Byte → List Byte → List Byte × List Byte
  | c, [] => ([], c)
  | c, b :: bs => ((packStep c b).1 ++ (packAll (packStep c b).2 bs).1, (packAll (packStep c b).2 bs).2)

/-- What the bytes of the compressor put out and leave in the chunk `c`, by mode (R106). -/
def delivered (m : Mode) (c bs : List Byte) : List Byte × List Byte :=
  match m with
  | .raw => (bs, c)
  | .packed => packAll c bs
  | .idle => ([], c)
  | .direct => ([], c)

theorem packByte_eq (b : Byte) (s : State) :
    packByte b s = { s with outQ := s.outQ ++ unmarked (packStep s.pkBuf b).1, pkBuf := (packStep s.pkBuf b).2 } := by
  have h : (s.pkBuf ++ [b]).length = Config.maxChunk ↔ s.pkBuf.length = 254 := by
    simp [Config.maxChunk]
  unfold packByte packStep
  by_cases hl : s.pkBuf.length = 254
  · simp [hl, Config.maxChunk, outAll_eq]
  · simp [hl, Config.maxChunk]

/-- The chunk and the terminator that `PackEnd()` outputs (R141). -/
def packTail (c : List Byte) : List Byte := (if c = [] then [] else BitVec.ofNat 8 c.length :: c) ++ [0]

theorem packEnd_eq (s : State) :
    packEnd s = { s with outQ := s.outQ ++ unmarked (packTail s.pkBuf), pkBuf := [] } := by
  unfold packEnd packTail State.pkCnt
  cases h : s.pkBuf <;> simp [outAll_eq, Config.terminator]

theorem lzwOut_eq (b : Byte) (s : State) :
    lzwOut b s = { s with
      outQ := s.outQ ++ unmarked (delivered s.mode s.pkBuf [b]).1
      pkBuf := (delivered s.mode s.pkBuf [b]).2 } := by
  obtain ⟨m, _, _, _, _, _, _, _, _, _, _, _, _, _, _, _, _⟩ := s
  cases m <;> simp [lzwOut, delivered, outAll_eq, packByte_eq, packAll]

theorem delivered_cons (m : Mode) (c : List Byte) (b : Byte) (bs : List Byte) :
    delivered m c (b :: bs) = ((delivered m c [b]).1 ++ (delivered m (delivered m c [b]).2 bs).1,
      (delivered m (delivered m c [b]).2 bs).2) := by
  cases m <;> simp [delivered, packAll]

/-- All that routing compressor bytes does (R106, R140). -/
theorem lzwOutAll_eq (bs : List Byte) (s : State) :
    lzwOutAll bs s = { s with
      outQ := s.outQ ++ unmarked (delivered s.mode s.pkBuf bs).1
      pkBuf := (delivered s.mode s.pkBuf bs).2 } := by
  induction bs generalizing s with
  | nil =>
    obtain ⟨m, _, _, _, _, _, _, _, _, _, _, _, _, _, _, _, _⟩ := s
    cases m <;> simp [lzwOutAll, delivered, packAll]
  | cons b bs ih =>
    have hc : lzwOutAll (b :: bs) s = lzwOutAll bs (lzwOut b s) := rfl
    rw [hc, ih, lzwOut_eq]
    simp [delivered_cons s.mode s.pkBuf b bs, List.append_assoc]

theorem lzwOutAll_append (as bs : List Byte) (s : State) :
    lzwOutAll (as ++ bs) s = lzwOutAll bs (lzwOutAll as s) := List.foldl_append

@[simp] theorem lzwOutAll_nil (s : State) : lzwOutAll [] s = s := rfl

/-- Routing neither sees nor changes the compressor's registers. -/
theorem lzwOutAll_bits (bs : List Byte) (s : State) (x : Byte) (n : BitVec 3) :
    lzwOutAll bs { s with bitBuf := x, bitCnt := n } = { lzwOutAll bs s with bitBuf := x, bitCnt := n } := by
  simp [lzwOutAll_eq]

theorem drain_eq (n acc : Nat) (s : State) : drain n acc s = lzwOutAll (lowBytes n acc) s := by
  induction n generalizing acc s with
  | zero => rfl
  | succ n ih => exact ih _ _

/-! ## The chunk stays short, and the stream is `Pack` -/

theorem packStep_length {c : List Byte} (b : Byte) (h : c.length ≤ 254) : (packStep c b).2.length ≤ 254 := by
  unfold packStep
  split <;> (simp; try omega)

theorem packAll_length {c : List Byte} (bs : List Byte) (h : c.length ≤ 254) : (packAll c bs).2.length ≤ 254 := by
  induction bs generalizing c with
  | nil => exact h
  | cons b bs ih => exact ih (packStep_length b h)

theorem delivered_length {m : Mode} {c : List Byte} (bs : List Byte) (h : c.length ≤ 254) :
    (delivered m c bs).2.length ≤ 254 := by
  cases m <;> simp [delivered, h, packAll_length]

theorem chunkOf_zero (y : List Byte) : chunkOf y 0 = y.take 255 := by simp [chunkOf]

theorem chunkOf_succ (y : List Byte) (j : Nat) : chunkOf y (j + 1) = chunkOf (y.drop 255) j := by
  simp [chunkOf, Nat.mul_succ, Nat.add_comm]

theorem pack_nil : pack [] = [0] := rfl

/-- A whole chunk at the front goes out first (R146). -/
theorem pack_long {y : List Byte} (h : 255 ≤ y.length) : pack y = 255 :: y.take 255 ++ pack (y.drop 255) := by
  have hl : (y.length + 254) / 255 = ((y.drop 255).length + 254) / 255 + 1 := by simp; omega
  rw [pack, hl, List.range_succ_eq_map, List.flatMap_cons, List.flatMap_map, chunkOf_zero]
  simp [pack, chunkOf_succ, Nat.min_eq_left h, List.append_assoc]

/-- A last, partial chunk (R146). -/
theorem pack_short {y : List Byte} (h : y.length ≤ 255) : pack y = packTail y := by
  cases y with
  | nil => rfl
  | cons b bs =>
    have hl : ((b :: bs).length + 254) / 255 = 1 := by simp at h ⊢; omega
    rw [pack, hl, packTail]
    simp only [List.range_one, List.flatMap_cons, List.flatMap_nil, chunkOf_zero, List.take_of_length_le h]
    simp

/-- What the packer puts out for a byte sequence, and at its end, is `Pack` of it (R146). -/
theorem packAll_pack {c : List Byte} (bs : List Byte) (h : c.length ≤ 254) :
    (packAll c bs).1 ++ packTail (packAll c bs).2 = pack (c ++ bs) := by
  induction bs generalizing c with
  | nil => simpa [packAll] using (pack_short (by omega : c.length ≤ 255)).symm
  | cons b bs ih =>
    rw [packAll, List.append_assoc, ih (packStep_length b h)]
    by_cases hl : c.length = 254
    · have h1 : (c ++ [b]).length = 255 := by simp [hl]
      have h2 : pack (c ++ b :: bs) = 255 :: (c ++ [b]) ++ pack bs := by
        rw [List.append_cons, pack_long (by simp [hl]; omega), List.take_left' h1, List.drop_left' h1]
      simp [packStep, hl, h2]
    · simp [packStep, hl]

/-! ## The accumulator -/

/-- The bytes that `EmitCode(c)` drains (R105). -/
def emittedBytes (c : Code) (s : State) : List Byte :=
  lowBytes ((s.bitCnt.toNat + s.width.toNat) / 8) (s.bitBuf.toNat ||| c.toNat <<< s.bitCnt.toNat)

theorem emitCode_eq (c : Code) (s : State) :
    emitCode c s = { lzwOutAll (emittedBytes c s) s with
      bitBuf := (emitCode c s).bitBuf, bitCnt := (emitCode c s).bitCnt } := by
  simp [emitCode, drain_eq, emittedBytes]

/-! The frame of `EmitCode`: it touches the accumulator, the chunk and the output only. -/

@[simp] theorem emitCode_mode (c : Code) (s : State) : (emitCode c s).mode = s.mode := by
  rw [emitCode_eq, lzwOutAll_eq]
@[simp] theorem emitCode_err (c : Code) (s : State) : (emitCode c s).err = s.err := by
  rw [emitCode_eq, lzwOutAll_eq]
@[simp] theorem emitCode_cause (c : Code) (s : State) : (emitCode c s).cause = s.cause := by
  rw [emitCode_eq, lzwOutAll_eq]
@[simp] theorem emitCode_errcmd (c : Code) (s : State) : (emitCode c s).errcmd = s.errcmd := by
  rw [emitCode_eq, lzwOutAll_eq]
@[simp] theorem emitCode_table (c : Code) (s : State) : (emitCode c s).table = s.table := by
  rw [emitCode_eq, lzwOutAll_eq]
@[simp] theorem emitCode_nextCode (c : Code) (s : State) : (emitCode c s).nextCode = s.nextCode := by
  rw [emitCode_eq, lzwOutAll_eq]
@[simp] theorem emitCode_width (c : Code) (s : State) : (emitCode c s).width = s.width := by
  rw [emitCode_eq, lzwOutAll_eq]
@[simp] theorem emitCode_prefixCode (c : Code) (s : State) : (emitCode c s).prefixCode = s.prefixCode := by
  rw [emitCode_eq, lzwOutAll_eq]
@[simp] theorem emitCode_havePrefix (c : Code) (s : State) : (emitCode c s).havePrefix = s.havePrefix := by
  rw [emitCode_eq, lzwOutAll_eq]
@[simp] theorem emitCode_cmdIn (c : Code) (s : State) : (emitCode c s).cmdIn = s.cmdIn := by
  rw [emitCode_eq, lzwOutAll_eq]
@[simp] theorem emitCode_turns (c : Code) (s : State) : (emitCode c s).turns = s.turns := by
  rw [emitCode_eq, lzwOutAll_eq]
@[simp] theorem emitCode_taken (c : Code) (s : State) : (emitCode c s).taken = s.taken := by
  rw [emitCode_eq, lzwOutAll_eq]
@[simp] theorem emitCode_draws (c : Code) (s : State) : (emitCode c s).draws = s.draws := by
  rw [emitCode_eq, lzwOutAll_eq]

/-- What `EmitCode` outputs and leaves in the chunk (R105, R106). -/
theorem emitCode_out (c : Code) (s : State) :
    (emitCode c s).outQ = s.outQ ++ unmarked (delivered s.mode s.pkBuf (emittedBytes c s)).1
      ∧ (emitCode c s).pkBuf = (delivered s.mode s.pkBuf (emittedBytes c s)).2 := by
  rw [emitCode_eq, lzwOutAll_eq]
  exact ⟨rfl, rfl⟩

/-- EmitCode appends the code's bits to the stream and keeps fewer than 8 of them (R105, R53, R35). -/
theorem emitCode_bits {c : Code} {s : State} (hb : s.bitBuf.toNat < 2 ^ s.bitCnt.toNat)
    (hc : c.toNat < 2 ^ s.width.toNat) :
    bytesBits (emittedBytes c s) ++ (emitCode c s).accBits = s.accBits ++ natBits s.width.toNat c.toNat
      ∧ (emitCode c s).bitBuf.toNat < 2 ^ (emitCode c s).bitCnt.toNat
      ∧ (emitCode c s).bitCnt.toNat = (s.bitCnt.toNat + s.width.toNat) % 8 := by
  obtain ⟨n, hn⟩ : ∃ n, s.bitCnt.toNat + s.width.toNat = n := ⟨_, rfl⟩
  obtain ⟨acc, ha⟩ : ∃ acc, s.bitBuf.toNat ||| c.toNat <<< s.bitCnt.toNat = acc := ⟨_, rfl⟩
  have hlt : acc < 2 ^ n := by rw [← ha, ← hn]; exact or_shiftLeft_lt hb hc
  have hcnt : (emitCode c s).bitCnt.toNat = n % 8 := by
    simp only [emitCode, hn, BitVec.toNat_ofNat]
    omega
  have hr : acc >>> (8 * (n / 8)) < 2 ^ (n % 8) := by
    rw [Nat.shiftRight_eq_div_pow]
    exact Nat.div_lt_of_lt_mul (by rw [← Nat.pow_add, Nat.div_add_mod]; exact hlt)
  have h8 : (2 : Nat) ^ (n % 8) ≤ 2 ^ 8 := Nat.pow_le_pow_right (by decide) (by omega)
  have hbuf : (emitCode c s).bitBuf.toNat = acc >>> (8 * (n / 8)) := by
    simp only [emitCode, hn, ha, BitVec.toNat_ofNat]
    exact Nat.mod_eq_of_lt (by omega)
  refine ⟨?_, by rw [hcnt, hbuf]; exact hr, by rw [hcnt, hn]⟩
  rw [State.accBits, State.accBits, hcnt, hbuf, emittedBytes, hn, ha, bytesBits_lowBytes, ← natBits_add,
    Nat.div_add_mod, ← hn, ← ha, natBits_join _ _ hb]

/-- The bytes that `FlushBits()` outputs (R107). -/
def flushedBytes (s : State) : List Byte := if 0 < s.bitCnt.toNat then [s.bitBuf] else []

theorem flushBits_eq (s : State) :
    flushBits s = { lzwOutAll (flushedBytes s) s with bitBuf := 0, bitCnt := 0 } := by
  unfold flushBits flushedBytes
  split <;> rfl

/-- The flushed byte is the held bits padded with zeros (R107). -/
theorem flushedBytes_bits {s : State} (hb : s.bitBuf.toNat < 2 ^ s.bitCnt.toNat) :
    bytesBits (flushedBytes s) = s.accBits ++ List.replicate ((8 - s.bitCnt.toNat) % 8) false := by
  unfold flushedBytes State.accBits
  have := s.bitCnt.isLt
  split
  · have h8 : s.bitCnt.toNat + (8 - s.bitCnt.toNat) % 8 = 8 := by omega
    rw [← natBits_append_zeros hb, h8]
    simp
  · have h0 : s.bitCnt.toNat = 0 := by omega
    simp [h0]

theorem bitsToBytes_accBits {s : State} (hb : s.bitBuf.toNat < 2 ^ s.bitCnt.toNat) :
    bitsToBytes s.accBits = flushedBytes s := by
  unfold flushedBytes State.accBits
  have := s.bitCnt.isLt
  split
  · rw [bitsToBytes_short ‹_› (by omega) hb]
    simp
  · have h0 : s.bitCnt.toNat = 0 := by omega
    simp [h0]

/-! ## The code table -/

/-- A hit is an entry of the table (R102). -/
theorem lookup_mem {p : Code} {x : Sym} {c : Code} {t : List Entry} (h : lookup p x t = some c) :
    ⟨p, x, c⟩ ∈ t := by
  induction t with
  | nil => simp [lookup] at h
  | cons e rest ih =>
    unfold lookup at h
    split at h
    · obtain ⟨rfl, rfl⟩ := ‹_ ∧ _›
      simp at h
      subst h
      simp
    · simp [ih h]

/-- A miss says that no entry has the key (R102). -/
theorem lookup_none {p : Code} {x : Sym} {t : List Entry} :
    lookup p x t = none ↔ ∀ e ∈ t, ¬ (e.pfx = p ∧ e.sym = x) := by
  induction t with
  | nil => simp [lookup]
  | cons e rest ih =>
    unfold lookup
    split
    · simp_all
    · simp_all

/-- All that `GrowWidth()` does (R109). -/
theorem growWidth_eq (s : State) : growWidth s = { s with
    width := if 2 ^ s.width.toNat < s.nextCode.toNat ∧ s.width.toNat < 12 then BitVec.ofNat 4 (s.width.toNat + 1)
      else s.width } := by
  unfold growWidth Config.maxWidth
  by_cases h : 2 ^ s.width.toNat < s.nextCode.toNat ∧ s.width.toNat < 12
  · simp only [if_pos h]
  · simp only [if_neg h]

/-! ## The marks -/

/-- `markLast` keeps the bytes and their number. -/
@[simp] theorem markLast_data (bs : List OutByte) : (markLast bs).map OutByte.data = bs.map OutByte.data := by
  induction bs with
  | nil => rfl
  | cons b bs ih => cases bs <;> simp_all [markLast]

@[simp] theorem length_markLast (bs : List OutByte) : (markLast bs).length = bs.length := by
  rw [← List.length_map (f := OutByte.data), markLast_data, List.length_map]

/-- The mark sits on the last byte and changes nothing before it (R58). -/
theorem markLast_append (bs : List OutByte) (b : OutByte) : markLast (bs ++ [b]) = bs ++ [{ b with last := true }] := by
  induction bs with
  | nil => rfl
  | cons c bs ih => cases bs <;> simp_all [markLast]

/-! ## The check before a command -/

theorem checked_halted {i : Instr} {f : State → State} {s : State} (h : s.err = true) : checked i f s = .next s := by
  simp [checked, h]

theorem checked_legal {i : Instr} {f : State → State} {s : State} (h : s.err = false) (hl : legalIn i s.mode = true) :
    checked i f s = .next (f s) := by
  simp [checked, h, hl]

theorem checked_illegal {i : Instr} {f : State → State} {s : State} (h : s.err = false)
    (hl : legalIn i s.mode = false) : checked i f s = .next (raiseError .modeViolation (encode i) s) := by
  simp [checked, h, hl]

/-- The effect of a command past its checks. -/
def effectOf : Instr → State → State
  | .start raw => startEffect raw
  | .sym x => symEffect x
  | .endFrame => withLastMark endEffect
  | .pstart => pstartEffect
  | .pbyte b => packByte b
  | .pend => withLastMark pendEffect

/-- Every command is its effect behind the one check (R76, R77). -/
theorem exec_eq_checked (i : Instr) (s : State) : exec i s = checked i (effectOf i) s := by cases i <;> rfl

/-- What a command can do: nothing while halted, its effect in a legal mode, else the error entry. -/
theorem exec_cases {i : Instr} {s t : State} (h : exec i s = .next t) :
    (s.err = true ∧ t = s) ∨ (s.err = false ∧ legalIn i s.mode = true ∧ t = effectOf i s)
      ∨ (s.err = false ∧ legalIn i s.mode = false ∧ t = raiseError .modeViolation (encode i) s) := by
  rw [exec_eq_checked] at h
  unfold checked at h
  split at h
  · exact .inl ⟨‹_›, by simpa using h.symm⟩
  · split at h
    · exact .inr (.inl ⟨by simp_all, ‹_›, by simpa using h.symm⟩)
    · exact .inr (.inr ⟨by simp_all, by simp_all, by simpa using h.symm⟩)

end Sys2Proof.Machine
end

