-- ==== Sys2Proof/Laws/Step.lean ====
section
/-! SUPPORT. What a step can do, said once: inversion lemmas for a word, a command turn, a step and a sequence of words. -/

namespace Sys2Proof.Machine

/-- A state in which no turn is listed is the state with no turn listed. -/
theorem withTurns_nil {s : State} (h : s.turns = []) : { s with turns := [] } = s := by
  rw [← h]

theorem withCmdIn_self {s : State} {ws : List Word} (h : s.cmdIn = ws) : { s with cmdIn := ws } = s := by
  rw [← h]

theorem stepWord_halted {w : Word} {s : State} (h : s.err = true) : stepWord w s = .next s := by
  simp [stepWord, h]

theorem stepWord_ok {w : Word} {s : State} {i : Instr} (h : decode w = .ok i) : stepWord w s = exec i s := by
  unfold stepWord
  split
  · rw [exec_eq_checked, checked_halted ‹_›]
  · rw [h]

theorem stepWord_error {w : Word} {s : State} {e : DecodeError} (he : s.err = false) (h : decode w = .error e) :
    stepWord w s = .next (raiseError (causeOf e) w s) := by
  unfold stepWord
  rw [h, he]
  rfl

/-- A word always leads to a next state (R142, R160). -/
theorem stepWord_next (w : Word) (s : State) : ∃ t, stepWord w s = .next t := by
  cases he : s.err with
  | true => exact ⟨s, stepWord_halted he⟩
  | false =>
    cases hd : decode w with
    | error e => exact ⟨_, stepWord_error he hd⟩
    | ok i =>
      rw [stepWord_ok hd, exec_eq_checked]
      cases hl : legalIn i s.mode with
      | true => exact ⟨_, checked_legal he hl⟩
      | false => exact ⟨_, checked_illegal he hl⟩

/-- All that one word can do (R76). -/
theorem stepWord_cases {w : Word} {s t : State} (h : stepWord w s = .next t) :
    (s.err = true ∧ t = s)
      ∨ (s.err = false ∧ ∃ e, decode w = .error e ∧ t = raiseError (causeOf e) w s)
      ∨ (s.err = false ∧ ∃ i, decode w = .ok i ∧ legalIn i s.mode = true ∧ t = effectOf i s)
      ∨ (s.err = false ∧ ∃ i, decode w = .ok i ∧ legalIn i s.mode = false
          ∧ t = raiseError .modeViolation (encode i) s) := by
  cases he : s.err with
  | true => rw [stepWord_halted he] at h; exact .inl ⟨rfl, by simpa using h.symm⟩
  | false =>
    cases hd : decode w with
    | error e => rw [stepWord_error he hd] at h; exact .inr (.inl ⟨rfl, e, rfl, by simpa using h.symm⟩)
    | ok i =>
      rw [stepWord_ok hd] at h
      rcases exec_cases h with ⟨he', -⟩ | ⟨-, hl, ht⟩ | ⟨-, hl, ht⟩
      · simp [he] at he'
      · exact .inr (.inr (.inl ⟨rfl, i, rfl, hl, ht⟩))
      · exact .inr (.inr (.inr ⟨rfl, i, rfl, hl, ht⟩))

theorem commandTurn_nil {s : State} (h : s.cmdIn = []) : commandTurn s = .next s := by
  simp [commandTurn, h]

theorem commandTurn_cons {s t : State} {w : Word} {rest : List Word} (h : s.cmdIn = w :: rest)
    (ht : stepWord w { s with cmdIn := rest } = .next t) :
    commandTurn s = if accepts s t then .next t else .next s := by
  unfold commandTurn
  rw [h]
  simp only [ht]

/-- All that a command turn can do (R59, R189). -/
theorem commandTurn_cases {s t : State} (h : commandTurn s = .next t) :
    t = s ∨ ∃ w rest, s.cmdIn = w :: rest ∧ stepWord w { s with cmdIn := rest } = .next t ∧ accepts s t = true := by
  cases hc : s.cmdIn with
  | nil => rw [commandTurn_nil hc] at h; exact .inl (by simpa using h.symm)
  | cons w rest =>
    obtain ⟨u, hu⟩ := stepWord_next w { s with cmdIn := rest }
    rw [commandTurn_cons hc hu] at h
    split at h
    · cases h; exact .inr ⟨w, rest, rfl, hu, ‹_›⟩
    · exact .inl (by simpa using h.symm)

theorem commandTurn_next (s : State) : ∃ t, commandTurn s = .next t := by
  cases hc : s.cmdIn with
  | nil => exact ⟨s, commandTurn_nil hc⟩
  | cons w rest =>
    obtain ⟨u, hu⟩ := stepWord_next w { s with cmdIn := rest }
    rw [commandTurn_cons hc hu]
    split
    · exact ⟨_, rfl⟩
    · exact ⟨_, rfl⟩

theorem step_none {s : State} (h : s.turns = []) : step s = commandTurn { s with turns := [] } := by
  rw [withTurns_nil h]
  simp [step, h]

theorem step_command {s : State} {ts : List Turn} (h : s.turns = .command :: ts) :
    step s = commandTurn { s with turns := ts } := by
  simp [step, h]

theorem step_take {s : State} {ts : List Turn} (h : s.turns = .take :: ts) :
    step s = .next (takeByte { s with turns := ts }) := by
  simp [step, h]

theorem step_reset {s : State} {ts : List Turn} (h : s.turns = .reset :: ts) :
    step s = .next (assertReset { s with turns := ts }) := by
  simp [step, h]

/-- All that a step can do: a command turn (listed, or because none is), a take turn, or a reset turn. -/
theorem step_cases {s t : State} (h : step s = .next t) :
    (∃ ts, (s.turns = .command :: ts ∨ (s.turns = [] ∧ ts = [])) ∧ commandTurn { s with turns := ts } = .next t)
      ∨ (∃ ts, s.turns = .take :: ts ∧ t = takeByte { s with turns := ts })
      ∨ (∃ ts, s.turns = .reset :: ts ∧ t = assertReset { s with turns := ts }) := by
  cases hu : s.turns with
  | nil => rw [step_none hu] at h; exact .inl ⟨[], .inr ⟨rfl, rfl⟩, h⟩
  | cons u ts =>
    cases u with
    | command => rw [step_command hu] at h; exact .inl ⟨ts, .inl rfl, h⟩
    | take => rw [step_take hu] at h; exact .inr (.inl ⟨ts, rfl, by simpa using h.symm⟩)
    | reset => rw [step_reset hu] at h; exact .inr (.inr ⟨ts, rfl, by simpa using h.symm⟩)

/-- All that a take turn can do (R189). -/
theorem takeByte_cases (s : State) : (s.outQ = [] ∧ takeByte s = s)
    ∨ ∃ b rest, s.outQ = b :: rest ∧ takeByte s = { s with outQ := rest, taken := s.taken ++ [b] } := by
  unfold takeByte
  cases h : s.outQ with
  | nil => exact .inl ⟨rfl, rfl⟩
  | cons b rest => exact .inr ⟨b, rest, rfl, rfl⟩

/-! ## Sequences of words and of steps -/

theorem runWords_cons {w : Word} {ws : List Word} {s t : State} (h : stepWord w s = .next t) :
    runWords (w :: ws) s = runWords ws t := by
  simp [runWords, h]

theorem runWords_append {vs ws : List Word} {s t : State} (h : runWords vs s = .next t) :
    runWords (vs ++ ws) s = runWords ws t := by
  induction vs generalizing s with
  | nil => cases h; rfl
  | cons v vs ih =>
    obtain ⟨u, hu⟩ := stepWord_next v s
    rw [runWords_cons hu] at h
    rw [List.cons_append, runWords_cons hu]
    exact ih h

theorem runWords_next (ws : List Word) (s : State) : ∃ t, runWords ws s = .next t := by
  induction ws generalizing s with
  | nil => exact ⟨s, rfl⟩
  | cons w ws ih =>
    obtain ⟨u, hu⟩ := stepWord_next w s
    rw [runWords_cons hu]
    exact ih u

theorem run_zero (s : State) : core.run 0 s = .next s := rfl

/-- One step, then the rest of the run. -/
theorem run_succ {s t : State} (k : Nat) (h : step s = .next t) : core.run (k + 1) s = core.run k t := by
  have h' : core.step s = .next t := h
  simp only [Host.Core.run, h']

end Sys2Proof.Machine
end

