-- ==== Sys2Proof/Laws/Effects.lean ====
section
/-! SUPPORT. What each command does past its checks, said once: the closed forms of START, a miss and END, the steps of the table and width invariants, and that no command sees the outside of the ports. -/

namespace Sys2Proof.Machine

/-! ## Closed forms -/

/-- All that START does past its checks (R110). -/
theorem startEffect_eq (raw : Bool) (s : State) : startEffect raw s = { s with
        mode := if raw then .raw else .packed
        table := [], nextCode := 6, width := 3, prefixCode := 0, havePrefix := false
        bitBuf := 4, bitCnt := 3, pkBuf := [] } := by
  simp [startEffect, emitCode, drain, Config.clear, modeOfRaw, resetTable, Config.firstCode, Config.initWidth]

/-- The prefix fits the width (R34, R32). -/
theorem Inv_prefix_fits {s : State} (h : s.Inv) (hp : s.havePrefix = true) : s.prefixCode.toNat < 2 ^ s.width.toNat := by
  have h1 := h.widthLeast
  have h2 : 2 ^ 3 ≤ 2 ^ s.width.toNat := Nat.pow_le_pow_right (by decide) h1.1
  rcases h.prefixKnown hp with h3 | h3 <;> omega

/-- Literals, CLEAR and EOI fit the width (R32). -/
theorem Inv_width_eight {s : State} (h : s.Inv) : 8 ≤ 2 ^ s.width.toNat := by
  have h1 := h.widthLeast
  exact (Nat.pow_le_pow_right (by decide) h1.1 : 2 ^ 3 ≤ 2 ^ s.width.toNat)

/-- All that learning a pair does (R108, R109). -/
theorem learn_eq (x : Sym) (s : State) : learn x s = {s with
   table := ⟨s.prefixCode, x, BitVec.ofNat 12 s.nextCode.toNat⟩ :: s.table
   nextCode := BitVec.ofNat 13 (s.nextCode.toNat + 1)
   width := if 2 ^ s.width.toNat < (s.nextCode.toNat + 1) % 2^13 ∧ s.width.toNat < 12 then BitVec.ofNat 4 (s.width.toNat + 1) else s.width } := by
  simp [learn, growWidth_eq, insertEntry]

/-- All that a miss with room in the table does (R108). -/
theorem miss_room (x : Sym) (s : State) (hn : s.nextCode.toNat < 4096) : miss x s = { emitCode s.prefixCode s with
   table := ⟨s.prefixCode, x, BitVec.ofNat 12 s.nextCode.toNat⟩ :: s.table
   nextCode := BitVec.ofNat 13 (s.nextCode.toNat + 1)
   width := if 2 ^ s.width.toNat < s.nextCode.toNat + 1 ∧ s.width.toNat < 12 then BitVec.ofNat 4 (s.width.toNat + 1) else s.width
   prefixCode := x.setWidth 12 } := by
  have : (s.nextCode.toNat + 1) % 2 ^ 13 = s.nextCode.toNat + 1 := Nat.mod_eq_of_lt (by omega)
  unfold miss
  simp only [Config.tableLimit, hn, if_true, learn_eq, emitCode_nextCode, emitCode_width, emitCode_table, emitCode_prefixCode, this]
  rfl

/-- All that a miss on the full table does (R108). -/
theorem miss_full (x : Sym) (s : State) (hn : ¬ s.nextCode.toNat < 4096) : miss x s = { emitCode Config.clear (emitCode s.prefixCode s) with
   table := [], nextCode := 6, width := 3, prefixCode := x.setWidth 12 } := by
  unfold miss
  simp only [Config.tableLimit, hn, if_false]; rfl

theorem length_emittedBytes (c : Code) (s : State) : (emittedBytes c s).length = (s.bitCnt.toNat + s.width.toNat) / 8 := by simp [emittedBytes]

/-- Two codes in a row drain the bytes of both. -/
theorem emitCode_emitCode (d c : Code) (s : State) : emitCode d (emitCode c s) = { lzwOutAll (emittedBytes c s ++ emittedBytes d (emitCode c s)) s with bitBuf := (emitCode d (emitCode c s)).bitBuf, bitCnt := (emitCode d (emitCode c s)).bitCnt } := by
  rw [lzwOutAll_append]
  conv_lhs => rw [emitCode_eq d]
  have : lzwOutAll (emittedBytes d (emitCode c s)) (emitCode c s) = { lzwOutAll (emittedBytes d (emitCode c s)) (lzwOutAll (emittedBytes c s) s) with bitBuf := (emitCode c s).bitBuf, bitCnt := (emitCode c s).bitCnt } := by
    conv_lhs => rw [emitCode_eq c s]
    rw [lzwOutAll_bits, ← emitCode_eq]
  rw [this]

/-- `s` with another accumulator. -/
def withBits (s : State) (x : Byte) (n : BitVec 3) : State := {s with bitBuf := x, bitCnt := n}

theorem lzwOutAll_withBits (bs : List Byte) (s : State) (x : Byte) (n : BitVec 3) : lzwOutAll bs (withBits s x n) = withBits (lzwOutAll bs s) x n := lzwOutAll_bits bs s x n

theorem withBits_withBits (s : State) (x : Byte) (n : BitVec 3) (y : Byte) (m : BitVec 3) : withBits (withBits s x n) y m = withBits s y m := rfl

/-- All that END does past its checks, but for the mark (R112). -/
theorem endEffect_eq {s : State} (h : s.Inv) (hm : s.mode = .packed ∨ s.mode = .raw) : ∃ bs pad,
   bytesBits bs = s.accBits ++ (if s.havePrefix then natBits s.width.toNat s.prefixCode.toNat else [])
              ++ natBits s.width.toNat 5 ++ List.replicate pad false
   ∧ pad < 8 ∧ 1 ≤ bs.length ∧ bs.length ≤ 4 ∧
   endEffect s = { s with
              mode := .idle, table := [], nextCode := 6, width := 3, prefixCode := 0, havePrefix := false
              bitBuf := 0, bitCnt := 0, pkBuf := []
              outQ := s.outQ ++ unmarked (if s.mode = .raw then bs else pack (s.pkBuf ++ bs)) } := by
  obtain ⟨bs0, a, ha, hab, hab2, hac, hal⟩ : ∃ bs0 a, (if s.havePrefix then emitCode s.prefixCode s else s) = a ∧ a = {lzwOutAll bs0 s with bitBuf := a.bitBuf, bitCnt := a.bitCnt} ∧
      a.bitBuf.toNat < 2 ^ a.bitCnt.toNat ∧ bytesBits bs0 ++ a.accBits = s.accBits ++ (if s.havePrefix then natBits s.width.toNat s.prefixCode.toNat else []) ∧
       8 * bs0.length + a.bitCnt.toNat ≤ s.bitCnt.toNat + 12 := by
    by_cases hp : s.havePrefix = true
    · obtain ⟨b1, b2, b3⟩ := emitCode_bits h.bitsHeld (Inv_prefix_fits h hp)
      refine ⟨emittedBytes s.prefixCode s, emitCode s.prefixCode s, by simp [hp], emitCode_eq _ _, b2, by simpa [hp] using b1, ?_⟩
      rw [length_emittedBytes, b3]; have := h.widthLeast; omega
    · exact ⟨[], s, by simp [hp], rfl, h.bitsHeld, by simp [hp], by simp⟩
  have haw : a.width = s.width := by rw [hab, lzwOutAll_eq]
  have h5 : Config.eoi.toNat < 2 ^ a.width.toNat := by rw [haw]; exact lt_of_lt_of_le (by decide) (Inv_width_eight h)
  obtain ⟨b1, b2, b3⟩ := emitCode_bits hab2 h5
  have bl := length_emittedBytes Config.eoi a
  have fb := flushedBytes_bits b2
  generalize hb : emitCode Config.eoi a = b at *
  have hb2 : b = {lzwOutAll (emittedBytes Config.eoi a) a with bitBuf := b.bitBuf, bitCnt := b.bitCnt} := by rw [← hb]; exact emitCode_eq _ _
  have key : flushBits b = { lzwOutAll (bs0 ++ emittedBytes Config.eoi a ++ flushedBytes b) s with bitBuf := 0, bitCnt := 0 } := by
    rw [flushBits_eq]
    generalize flushedBytes b = fbs at *
    rw [hb2]
    generalize emittedBytes Config.eoi a = eb at *
    change withBits (lzwOutAll fbs (withBits (lzwOutAll eb a) _ _)) 0 0 = withBits _ 0 0
    have hab' : a = withBits (lzwOutAll bs0 s) a.bitBuf a.bitCnt := hab
    rw [lzwOutAll_withBits, withBits_withBits, hab', lzwOutAll_withBits, lzwOutAll_withBits, withBits_withBits, lzwOutAll_append, lzwOutAll_append]
  have len : (bytesBits (bs0 ++ emittedBytes Config.eoi a ++ flushedBytes b)).length = _ := rfl
  refine ⟨bs0 ++ emittedBytes Config.eoi a ++ flushedBytes b, (8 - b.bitCnt.toNat) % 8, ?_, by omega, ?_, ?_, ?_⟩
  · rw [bytesBits_append, bytesBits_append, fb, ← hac, haw] at *
    have b1' := b1
    rw [haw] at b1'
    simp only [List.append_assoc] at *
    congr 1
    rw [← List.append_assoc, b1]; simp; rfl
  · have l1 := congrArg List.length b1
    have l2 := congrArg List.length fb
    simp [State.accBits] at l1 l2
    have := h.widthLeast
    simp only [List.length_append]; rw [haw] at l1; omega
  · have l1 := congrArg List.length b1
    have l2 := congrArg List.length fb
    simp [State.accBits] at l1 l2
    have := h.widthLeast
    have := s.bitCnt.isLt
    have := b.bitCnt.isLt
    simp only [List.length_append]; rw [haw] at l1; omega
  · generalize bs0 ++ emittedBytes Config.eoi a ++ flushedBytes b = bs at *
    unfold endEffect
    rw [ha]; simp only [hb, key]
    rcases hm with hm | hm
    · have hpk := packAll_pack bs (c := s.pkBuf) h.chunkShort
      simp [lzwOutAll_eq, hm, packEnd_eq, resetTable, Config.firstCode, Config.initWidth, delivered, ← hpk]
    · have := h.packerEmpty (.inr hm)
      simp [lzwOutAll_eq, hm, resetTable, Config.firstCode, Config.initWidth, delivered, this]

/-! ## One step of the width and of the table -/

/-- Growing keeps the width least (R32, R109). -/
theorem width_step {n w : Nat} (h6 : 6 ≤ n) (h : 3 ≤ w ∧ w ≤ 12 ∧ n ≤ 2 ^ w ∧ (w = 3 ∨ 2 ^ (w - 1) < n)) (hn : n < 4096) :
  let w' := if 2 ^ w < n + 1 ∧ w < 12 then w + 1 else w
  3 ≤ w' ∧ w' ≤ 12 ∧ n + 1 ≤ 2 ^ w' ∧ (w' = 3 ∨ 2 ^ (w' - 1) < n + 1) := by
  intro w'
  obtain ⟨a, b, c, d⟩ := h
  simp only [w']
  split_ifs with hc
  · refine ⟨by omega, by omega, ?_, ?_⟩
    · rw [Nat.pow_succ]; omega
    · right; simpa using hc.1
  · have : n + 1 ≤ 2 ^ w := by
      by_cases hw : w < 12
      · by_contra h; exact hc ⟨by omega, hw⟩
      · have : w = 12 := by omega
        subst this; norm_num; omega
    refine ⟨a, b, this, ?_⟩
    rcases d with d | d
    · exact .inl d
    · right; omega

/-- Learning a new pair keeps the table's invariant (R33). -/
theorem table_step {n : Nat} {t : List Entry} {p : Code} {x : Sym} (h : TableInv n t) (h6 : 6 ≤ n) (hn : n < 4096)
   (hp : p.toNat < 4 ∨ (6 ≤ p.toNat ∧ p.toNat < n)) (hl : lookup p x t = none) :
   TableInv (n + 1) (⟨p, x, BitVec.ofNat 12 n⟩ :: t) := by
  obtain ⟨h1, h2, h3⟩ := h
  refine ⟨?_, ?_, ?_⟩
  · have e : n + 1 - 6 = (n - 6) + 1 := by omega
    rw [e, List.range'_concat]
    simp [h1, Nat.mod_eq_of_lt hn]; omega
  · simp only [List.map_cons, List.nodup_cons]
    refine ⟨?_, h2⟩
    rw [lookup_none] at hl
    simp only [List.mem_map, not_exists, not_and, Prod.mk.injEq]
    intro e he h; exact fun h' => hl e he ⟨h, h'⟩
  · intro e he
    rcases List.mem_cons.1 he with rfl | he
    · refine ⟨by simp; omega, ?_, ?_⟩ <;> (simp only; rintro rfl; revert hp; simp [Config.clear, Config.eoi])
    · exact ⟨by have := (h3 e he).1; omega, (h3 e he).2⟩

/-- The codes of a table (R33). -/
theorem table_code_lt {n : Nat} {t : List Entry} (h : TableInv n t) {e} (he : e ∈ t) : 6 ≤ e.code.toNat ∧ e.code.toNat < n := by
  have : e.code.toNat ∈ t.map (fun e => e.code.toNat) := List.mem_map_of_mem he
  rw [h.1] at this
  simp [List.mem_range'] at this
  obtain ⟨i, hi, he⟩ := this
  omega

/-! ## No command sees the outside of the ports (R60) -/
theorem emitted_ports (c s p) : emittedBytes c (s.withPortsOf p) = emittedBytes c s := rfl

theorem lzwOutAll_ports (bs s p) : lzwOutAll bs (s.withPortsOf p) = { (lzwOutAll bs s).withPortsOf p with outQ := p.outQ ++ unmarked (delivered s.mode s.pkBuf bs).1 } := by
  simp [lzwOutAll_eq, State.withPortsOf]

theorem emit_ports (c s p) : emitCode c (s.withPortsOf p) = { (emitCode c s).withPortsOf p with outQ := p.outQ ++ unmarked (delivered s.mode s.pkBuf (emittedBytes c s)).1 } := by
  simp [emitCode, drain_eq, lzwOutAll_eq, State.withPortsOf, emittedBytes]

/-- `f` only appends to the output, and does to the block the same whatever stands at the ports (R60). -/
def Local (f : State → State) : Prop := ∀ s p, ∃ new, (f s).outQ = s.outQ ++ new ∧ f (s.withPortsOf p) = { (f s).withPortsOf p with outQ := p.outQ ++ new }

theorem Local.comp {f g} (hf : Local f) (hg : Local g) : Local (fun s => g (f s)) := by
  intro s p
  obtain ⟨n1, h1, h2⟩ := hf s p
  obtain ⟨n2, h3, h4⟩ := hg (f s) { p with outQ := p.outQ ++ n1 }
  refine ⟨n1 ++ n2, by simp only [h3, h1, List.append_assoc], ?_⟩
  have : ({ (f s).withPortsOf p with outQ := p.outQ ++ n1 } : State) = (f s).withPortsOf { p with outQ := p.outQ ++ n1 } := rfl
  simp only [h2, this, h4, List.append_assoc]
  rfl

theorem local_emit (c) : Local (emitCode c) := fun s p => ⟨_, (emitCode_out c s).1, emit_ports c s p⟩

theorem local_upd {f : State → State} (h : ∀ s p, (f s).outQ = s.outQ ∧ f (s.withPortsOf p) = (f s).withPortsOf p) : Local f := by
  intro s p; refine ⟨[], by simp [(h s p).1], ?_⟩
  rw [(h s p).2]; simp [State.withPortsOf]

theorem local_emit_with (g : State → Code) (hg : ∀ s p, g (s.withPortsOf p) = g s) : Local (fun s => emitCode (g s) s) := by
  intro s p; simp only [hg]; exact local_emit (g s) s p

theorem local_ite {c : State → Prop} [DecidablePred c] {f g} (hc : ∀ s p, c (s.withPortsOf p) ↔ c s) (hf : Local f) (hg : Local g) : Local (fun s => if c s then f s else g s) := by
  intro s p
  by_cases h : c s
  · have h2 := (hc s p).2 h
    obtain ⟨n, h3, h4⟩ := hf s p
    exact ⟨n, by simp [h, h3], by simp only [if_pos h, if_pos h2, h4]⟩
  · have h2 := mt (hc s p).1 h
    obtain ⟨n, h3, h4⟩ := hg s p
    exact ⟨n, by simp [h, h3], by simp only [if_neg h, if_neg h2, h4]⟩

theorem local_id : Local (fun s => s) := local_upd fun _ _ => ⟨rfl, rfl⟩

theorem local_mark {f} (hf : Local f) : Local (withLastMark f) := by
  intro s p
  obtain ⟨n, h1, h2⟩ := hf { s with outQ := [] } { p with outQ := [] }
  refine ⟨markLast (f {s with outQ := []}).outQ, rfl, ?_⟩
  have e : ({ s.withPortsOf p with outQ := [] } : State) = ({ s with outQ := [] } : State).withPortsOf { p with outQ := [] } := rfl
  simp only [withLastMark, e, h2]
  simp at h1
  simp [h1, State.withPortsOf]

theorem local_packByte (b) : Local (packByte b) := by
  intro s p; exact ⟨unmarked (packStep s.pkBuf b).1, by simp [packByte_eq], by simp [packByte_eq, State.withPortsOf]⟩

theorem local_packEnd : Local packEnd := by
  intro s p; exact ⟨unmarked (packTail s.pkBuf), by simp [packEnd_eq], by simp [packEnd_eq, State.withPortsOf]⟩

theorem local_flush : Local flushBits := by
  intro s p; exact ⟨unmarked (delivered s.mode s.pkBuf (flushedBytes s)).1, by simp [flushBits_eq, lzwOutAll_eq], by
    have : flushedBytes (s.withPortsOf p) = flushedBytes s := rfl
    rw [flushBits_eq, flushBits_eq, this, lzwOutAll_ports]; rfl⟩

theorem grow_ports (s p) : growWidth (s.withPortsOf p) = (growWidth s).withPortsOf p := by
  simp [growWidth_eq, State.withPortsOf]

theorem local_miss (x) : Local (miss x) := by
  have h : Local (fun s => if s.nextCode.toNat < Config.tableLimit then (fun s => learn x s) (emitCode s.prefixCode s) else (fun s => resetTable s) (emitCode Config.clear (emitCode s.prefixCode s))) := by
    apply local_ite (c := fun s => s.nextCode.toNat < Config.tableLimit)
    · intros; rfl
    · exact Local.comp (local_emit_with (·.prefixCode) fun _ _ => rfl) (local_upd fun s p => ⟨by simp [learn, growWidth_eq], by unfold learn; rw [← grow_ports]; rfl⟩)
    · exact Local.comp (Local.comp (local_emit_with (·.prefixCode) fun _ _ => rfl) (local_emit _)) (local_upd fun s p => ⟨rfl, rfl⟩)
  have h2 : Local (fun s => {s with prefixCode := literalCode x}) := local_upd fun _ _ => ⟨rfl, rfl⟩
  have h3 := h.comp h2
  intro s p
  exact h3 s p

theorem local_end : Local endEffect := by
  have h1 : Local (fun s => if s.havePrefix = true then emitCode s.prefixCode s else s) := local_ite (c := fun s => s.havePrefix = true) (fun _ _ => Iff.rfl) (local_emit_with (·.prefixCode) fun _ _ => rfl) local_id
  have h2 := (h1.comp (local_emit Config.eoi)).comp local_flush
  have h3 := h2.comp (local_ite (c := fun s => s.mode = .packed) (fun _ _ => Iff.rfl) local_packEnd local_id)
  have h4 : Local (fun s => { resetTable { s with mode := .idle } with prefixCode := 0, havePrefix := false }) := local_upd fun _ _ => ⟨rfl, rfl⟩
  have h5 := h3.comp h4
  exact h5

/-- Every command reads and changes the block alone and only appends to the output (R60). -/
theorem local_effect (i) : Local (effectOf i) := by
  cases i with
  | start raw =>
    have h1 : Local (fun s => { resetTable { s with mode := modeOfRaw raw } with
      prefixCode := 0, havePrefix := false, bitBuf := 0, bitCnt := 0, pkBuf := [] }) := local_upd fun _ _ => ⟨rfl, rfl⟩
    have h2 := h1.comp (local_emit Config.clear)
    exact h2
  | sym x =>
    intro s p
    simp only [effectOf, symEffect]
    by_cases h : s.havePrefix = false
    · have h2 : (s.withPortsOf p).havePrefix = false := h
      simp only [h, h2, if_true]
      exact ⟨[], by simp, by simp [State.withPortsOf]⟩
    · have h2 : ¬ (s.withPortsOf p).havePrefix = false := h
      simp only [h, h2, withPortsOf_prefixCode, withPortsOf_table]
      cases hl : lookup s.prefixCode x s.table with
      | some c => exact ⟨[], by simp, by simp [State.withPortsOf]⟩
      | none => exact local_miss x s p
  | endFrame => exact local_mark local_end
  | pstart => exact local_upd fun _ _ => ⟨rfl, rfl⟩
  | pbyte b => exact local_packByte b
  | pend =>
    have h1 : Local (fun s => {s with mode := .idle}) := local_upd fun _ _ => ⟨rfl, rfl⟩
    have h2 := local_packEnd.comp h1
    exact local_mark h2

/-! ## The marks, `Pack` and bytes of bits -/
theorem bitsToNat_zeros (as : List Bool) (n) : bitsToNat (as ++ List.replicate n false) = bitsToNat as := by
  induction as with
  | nil => induction n with
    | zero => rfl
    | succ n ih => simp [List.replicate_succ, bitsToNat] at ih ⊢; exact ih
  | cons a as ih => simp [bitsToNat, ih]

theorem bitsToBytes_pad (ys : List Byte) (acc : List Bool) (pad : Nat) (hp : pad < 8) (h : bytesBits ys = acc ++ List.replicate pad false) : bitsToBytes acc = ys := by
  induction ys generalizing acc with
  | nil => simp at h; rw [h.1]; rfl
  | cons b ys ih =>
    have hlen := congrArg List.length h
    simp at hlen
    by_cases hl : 8 ≤ acc.length
    · have h1 : acc = natBits 8 b.toNat ++ acc.drop 8 := by
        have := congrArg (List.take 8) h
        rw [bytesBits_cons, List.take_append_of_le_length (by simp), List.take_append_of_le_length hl, List.take_of_length_le (by simp)] at this
        rw [this, List.take_append_drop]
      have h2 : bytesBits ys = acc.drop 8 ++ List.replicate pad false := by
        have := congrArg (List.drop 8) h
        rw [bytesBits_cons, List.drop_left' (by simp), List.drop_append_of_le_length hl] at this
        exact this
      rw [h1, bitsToBytes_byte, ih _ h2]
    · have hy : ys = [] := by
        apply List.length_eq_zero_iff.1; omega
      subst hy
      have hl1 : (acc.length + 7) / 8 = 1 := by simp at hlen; omega
      have h3 := congrArg bitsToNat h
      rw [bitsToNat_zeros, bytesBits_cons, bytesBits_nil, List.append_nil, bitsToNat_natBits, Nat.mod_eq_of_lt b.isLt] at h3
      simp [bitsToBytes, hl1, List.take_of_length_le (show acc.length ≤ 8 by omega), ← h3]

theorem markLast_append_list (as bs : List OutByte) (h : bs ≠ []) : markLast (as ++ bs) = as ++ markLast bs := by
  rw [← List.dropLast_append_getLast h, ← List.append_assoc, markLast_append, markLast_append, List.append_assoc]

theorem packAll_append (c as bs : List Byte) : packAll c (as ++ bs) = ((packAll c as).1 ++ (packAll (packAll c as).2 bs).1, (packAll (packAll c as).2 bs).2) := by
  induction as generalizing c with
  | nil => simp [packAll]
  | cons a as ih => simp [packAll, ih, List.append_assoc]

theorem delivered_append (m c as bs) : delivered m c (as ++ bs) = ((delivered m c as).1 ++ (delivered m (delivered m c as).2 bs).1, (delivered m (delivered m c as).2 bs).2) := by
  cases m <;> simp [delivered, packAll_append]

/-- A table as the association list of R113, on naturals. -/
def toDict (t : List Entry) : List ((Nat × Nat) × Nat) := t.map fun e => ((e.pfx.toNat, e.sym.toNat), e.code.toNat)

theorem dict_lookup (t : List Entry) (p : Code) (x : Sys2Proof.Sym) : (toDict t).lookup (p.toNat, x.toNat) = (lookup p x t).map BitVec.toNat := by
  induction t with
  | nil => rfl
  | cons e r ih =>
    simp only [toDict, List.map_cons, List.lookup_cons] at ih ⊢
    unfold lookup
    by_cases h : e.pfx = p ∧ e.sym = x
    · obtain ⟨rfl, rfl⟩ := h; simp
    · rw [if_neg h]
      have : ((p.toNat, x.toNat) == (e.pfx.toNat, e.sym.toNat)) = false := by
        simp only [beq_eq_false_iff_ne, ne_eq, Prod.mk.injEq]
        rintro ⟨h1, h2⟩; exact h ⟨BitVec.eq_of_toNat_eq h1.symm, BitVec.eq_of_toNat_eq h2.symm⟩
      rw [this]; exact ih

end Sys2Proof.Machine
end

