-- ==== Sys2Proof/Laws/PerInstr.lean ====
section
/-! SUPPORT. The family `Encoding`: what holds of the encoding of each command of the opcode table, one lemma a constructor (R72, R73). -/

namespace Sys2Proof.Laws.Encoding

/-- The command is well-formed, its word agrees with its row's match under its row's mask, and its operand
lies outside the mask (R73). -/
def Statement (i : Instr) : Prop :=
  i.wellFormed = true ∧ encode i &&& maskOf i = matchOf i ∧ operandBits i &&& maskOf i = 0

theorem start (raw : Bool) : Statement (.start raw) := by
  cases raw <;> exact ⟨rfl, by decide, by decide⟩

theorem sym (s : Sym) : Statement (.sym s) :=
  ⟨decide_eq_true s.isLt, by revert s; decide, by revert s; decide⟩

theorem endFrame : Statement .endFrame := ⟨rfl, by decide, by decide⟩

theorem pstart : Statement .pstart := ⟨rfl, by decide, by decide⟩

/-- A byte lies below the mask of its row. -/
theorem pbyte_operand (b : Byte) : b.setWidth 16 &&& 0xFF00#16 = 0 := by
  apply BitVec.eq_of_getLsbD_eq
  intro k hk
  interval_cases k <;> simp

theorem pbyte (b : Byte) : Statement (.pbyte b) := by
  refine ⟨decide_eq_true b.isLt, ?_, pbyte_operand b⟩
  have h : encode (.pbyte b) &&& maskOf (.pbyte b)
      = (0x5000#16 &&& 0xFF00#16) ||| (b.setWidth 16 &&& 0xFF00#16) := by
    apply BitVec.eq_of_getLsbD_eq
    intro k hk
    simp only [encode, matchOf, operandBits, maskOf, BitVec.getLsbD_and, BitVec.getLsbD_or, Bool.and_or_distrib_right]
    rfl
  rw [h, pbyte_operand]
  rfl

theorem pend : Statement .pend := ⟨rfl, by decide, by decide⟩

end Sys2Proof.Laws.Encoding
end

