-- ==== Sys2Proof/Tests/Slice0.lean ====
section
/-! SUPPORT. The model's own tests: ill-formed terms are refused, words written from the opcode table decode, one step of each command on values of the spec's test vectors (95_test_vectors.md), and for every statement with hypotheses a state that meets them. -/

namespace Sys2Proof.Tests

open Sys2Proof Sys2Proof.Machine

/-! ## Well-formedness: what the check refuses (R72, R78, R79) -/

theorem test_sym_above_3_refused : (AsmLine.sym 4).wellFormed = false ∧ (AsmLine.sym 3).wellFormed = true := by decide

theorem test_pbyte_above_255_refused :
    (AsmLine.pbyte 256).wellFormed = false ∧ (AsmLine.pbyte 255).wellFormed = true := by decide

theorem test_word_above_16_bits_refused :
    (AsmLine.word 65536).wellFormed = false ∧ (AsmLine.word 65535).wellFormed = true := by decide

theorem test_frame_with_bad_symbol_refused :
    (AsmLine.frame [0, 4]).wellFormed = false ∧ (AsmLine.rawFrame [4, 0]).wellFormed = false
      ∧ (AsmLine.frame [0, 3]).wellFormed = true := by decide

theorem test_pblock_with_bad_byte_refused :
    (AsmLine.pblock [0, 256]).wellFormed = false ∧ (AsmLine.pblock [0, 255]).wellFormed = true := by decide

theorem test_refused_lines_give_no_words :
    assembleLine (.sym 4) = none ∧ assembleLine (.pbyte 256) = none ∧ assembleLine (.frame [1, 4]) = none := by decide

/-! ## Decoding: words written bit by bit from R73; the operand in its place -/

theorem test_decode_start : decode 0b0001000000000000 = .ok (.start false)
    ∧ decode 0b0001000000000001 = .ok (.start true) := by decide

theorem test_decode_sym : decode 0b0010000000000001 = .ok (.sym 1) ∧ decode 0b0010000000000010 = .ok (.sym 2) := by
  decide

theorem test_decode_end : decode 0b0011000000000000 = .ok .endFrame := by decide

theorem test_decode_pstart : decode 0b0100000000000000 = .ok .pstart := by decide

theorem test_decode_pbyte : decode 0b0101000001000001 = .ok (.pbyte 0x41)
    ∧ decode 0b0101000010000000 = .ok (.pbyte 0x80) := by decide

theorem test_decode_pend : decode 0b0110000000000000 = .ok .pend := by decide

/-- R75: OP 0x0 and 0x7 to 0xF. -/
theorem test_decode_illegal : decode 0x0000 = .error .illegalOpcode ∧ decode 0x7000 = .error .illegalOpcode
    ∧ decode 0xF000 = .error .illegalOpcode ∧ decode 0x0FFF = .error .illegalOpcode := by decide

/-- R74: one reserved bit of each row (E3, E4, E5). -/
theorem test_decode_reserved : decode 0x1002 = .error .reservedBits ∧ decode 0x2004 = .error .reservedBits
    ∧ decode 0x3100 = .error .reservedBits ∧ decode 0x4001 = .error .reservedBits
    ∧ decode 0x5800 = .error .reservedBits ∧ decode 0x6080 = .error .reservedBits := by decide

/-- R78: the words of the assembler. -/
theorem test_encode : encode (.start true) = 0x1001 ∧ encode (.sym 3) = 0x2003 ∧ encode .endFrame = 0x3000
    ∧ encode .pstart = 0x4000 ∧ encode (.pbyte 0x55) = 0x5055 ∧ encode .pend = 0x6000 := by decide

theorem test_decodeTableWord : decodeTableWord 16 0x2003 = some (.sym 3) ∧ decodeTableWord 16 0x2004 = none
    ∧ decodeTableWord 16 0x50FE = some (.pbyte 0xFE) := by decide

/-- R78: case and comments. -/
theorem test_assembleText : assembleText ['s', 'y', 'm', ' ', '3', ';', 'x'] = some [0x2003]
    ∧ assembleText ['P', 'B', 'Y', 'T', 'E', ' ', '0', 'x', '4', '1'] = some [0x5041]
    ∧ assembleText ['F', 'R', 'A', 'M', 'E', ' ', '1', ',', ' ', '0'] = some [0x1000, 0x2001, 0x2000, 0x3000]
    ∧ assembleText ['S', 'Y', 'M', ' ', '4'] = none ∧ assembleText [' ', ';'] = some [] := by decide

/-! ## One step of each command, from the spec's vectors -/

/-- An open compressor frame. -/
def frameState (m : Mode) (t : List Entry) (next : BitVec 13) (w : BitVec 4) (p : Code) (buf : Byte) (cnt : BitVec 3) :
    State :=
  { State.reset with
    mode := m, table := t, nextCode := next, width := w, prefixCode := p, havePrefix := true, bitBuf := buf, bitCnt := cnt }

/-- An open packer frame. -/
def directState (chunk : List Byte) : State := { State.reset with mode := .direct, pkBuf := chunk }

/-- The bytes `0, 1, …, n - 1`. -/
def countingBytes (n : Nat) : List Byte := (List.range n).map (BitVec.ofNat 8)

/-- What a test looks at: STATUS, ERRCMD, and the bytes held with their marks. -/
def view : Host.Outcome State Fault Refusal → Option (BitVec 32 × Word × List Byte × List Bool)
  | .next s => some (s.statusPort, s.errcmdPort, s.outQ.map OutByte.data, s.outQ.map OutByte.last)
  | _ => none

/-- The next state, if there is one. -/
def after : Host.Outcome State Fault Refusal → Option State
  | .next s => some s
  | _ => none

/-- The trace of section 2, first row. -/
theorem test_start_raw : view (exec (.start true) State.reset) = some (0x00006302, 0, [], []) := by decide

/-- P4: "bitBuf = 4, bitCnt = 3" after START. -/
theorem test_start_packed :
    after (exec (.start false) State.reset) = some { State.reset with mode := .packed, bitBuf := 4, bitCnt := 3 } := by
  decide

/-- The trace of section 2, the 4th SYM: a miss that outputs 8C. -/
theorem test_sym_miss :
    view (exec (.sym 1) (frameState .raw [⟨1, 1, 6⟩] 7 3 6 0x0C 6)) = some (0x00008302, 0, [0x8C], [false]) := by
  decide

/-- V13: the overflow at s_19585 emits 2167/12 and CLEAR 4/12. -/
theorem test_sym_overflow :
    after (exec (.sym 0) (frameState .raw [] 4096 12 2167 0 0)) = some
      { frameState .raw [] 6 3 0 0 0 with outQ := [⟨0x77, false⟩, ⟨0x48, false⟩, ⟨0x00, false⟩] } := by decide

/-- V6: after 0 1 0 1 the frame ends with prefix 6 and EOI, both of 3 bits. -/
theorem test_end_raw :
    view (exec .endFrame (frameState .raw [⟨1, 0, 7⟩, ⟨0, 1, 6⟩] 8 3 6 0 1)) = some (0x00006300, 0, [0x5C], [true]) := by
  decide

/-- P1, the last word. -/
theorem test_end_packed : view (exec .endFrame (frameState .packed [⟨1, 0, 6⟩] 7 3 0 0x0C 6))
    = some (0x00006300, 0, [0x02, 0x0C, 0x0A, 0x00], [false, false, false, true]) := by decide

/-- P3, the first word. -/
theorem test_pstart : view (exec .pstart State.reset) = some (0x00006303, 0, [], []) := by decide

/-- P3: a byte is kept and nothing is output. -/
theorem test_pbyte_keeps : after (exec (.pbyte 0x42) (directState [0x41])) = some (directState [0x41, 0x42]) := by
  decide

set_option maxRecDepth 10000 in
/-- V25: the 255th PBYTE outputs FF 00 01 … FE. -/
theorem test_pbyte_fills : after (exec (.pbyte 0xFE) (directState (countingBytes 254)))
    = some { directState [] with outQ := plainBytes (0xFF :: countingBytes 255) } := by decide

/-- V20: an empty packer frame. -/
theorem test_pend_empty : view (exec .pend (directState [])) = some (0x00006300, 0, [0x00], [true]) := by decide

/-- V22. -/
theorem test_pend_chunk : view (exec .pend (directState [0x41, 0x42, 0x43]))
    = some (0x00006300, 0, [0x03, 0x41, 0x42, 0x43, 0x00], [false, false, false, false, true]) := by decide

/-! ## Errors, halting and reset (section 4) -/

/-- E1, E3. -/
theorem test_errors_of_the_word : view (stepWord 0x0000 State.reset) = some (0x0000630C, 0x0000, [], [])
    ∧ view (stepWord 0x1002 State.reset) = some (0x00006314, 0x1002, [], []) := by decide

/-- E4, E6: reserved bits are reported before the mode error. -/
theorem test_errors_in_idle : view (stepWord 0x3100 State.reset) = some (0x00006314, 0x3100, [], [])
    ∧ view (stepWord 0x2001 State.reset) = some (0x0000631C, 0x2001, [], []) := by decide

/-- E7, E10. -/
theorem test_errors_in_packed : view (stepWord 0x1001 (frameState .packed [] 6 3 1 4 3)) = some (0x0000631D, 0x1001, [], [])
    ∧ view (stepWord 0xF000 (frameState .packed [] 6 3 1 4 3)) = some (0x0000630D, 0xF000, [], []) := by decide

/-- E9. -/
theorem test_errors_in_direct : view (stepWord 0x3000 (directState [])) = some (0x0000631F, 0x3000, [], []) := by decide

/-- P4: an error keeps the compressor as it was. -/
theorem test_error_is_precise : after (stepWord 0x5055 (frameState .packed [] 6 3 1 4 3))
    = some { frameState .packed [] 6 3 1 4 3 with err := true, cause := .modeViolation, errcmd := 0x5055 } := by decide

/-- The block after E6. -/
def haltedState : State := { State.reset with err := true, cause := .modeViolation, errcmd := 0x2001 }

/-- E11: later words are discarded. -/
theorem test_halted : after (stepWord 0x1000 haltedState) = some haltedState := by decide

/-- E12: reset clears the latch. -/
theorem test_reset_turn :
    view (step { haltedState with turns := [.reset] }) = some (0x00006300, 0x0000, [], []) := by decide

/-- The word placed for the host runs as the first command after reset. -/
theorem test_withFetchWord : view (step (State.reset.withFetchWord 16 0x1001)) = some (0x00006302, 0, [], [])
    ∧ view (step (State.reset.withFetchWord 16 0x2001)) = some (0x0000631C, 0x2001, [], []) := by decide

/-! ## `LZW(x)` and `Pack(y)` (sections 2 and 3) -/

/-- V1, V2, V5, V6. -/
theorem test_lzw_short : lzw [] = [0x2C] ∧ lzw [1, 0] = [0x0C, 0x0A] ∧ lzw [2, 2, 2] = [0x94, 0x0B]
    ∧ lzw [0, 1, 0, 1] = [0x44, 0x5C] := by decide

/-- V10: the width grows after the third entry. -/
theorem test_lzw_grows : lzw [0, 1, 2, 3, 0, 1, 2, 3] = [0x44, 0x34, 0x86, 0x05] := by decide

/-- V20, V22, V23. -/
theorem test_pack : pack [] = [0x00] ∧ pack [0x41, 0x42, 0x43] = [0x03, 0x41, 0x42, 0x43, 0x00]
    ∧ pack [0x00] = [0x01, 0x00, 0x00] := by decide

/-! ## States that have the invariants

A table of any size: its `j`-th entry has the key (`j / 4`, `j % 4`), the prefixes 4 and 5 skipped. -/

/-- The invariants as one conjunction that can be decided. -/
theorem inv_of {s : State} (h : (s.mode = .idle ∨ s.mode = .direct → s.CompressorIdle)
    ∧ (s.mode = .idle ∨ s.mode = .raw → s.pkBuf = []) ∧ s.pkCnt ≤ 254
    ∧ (6 ≤ s.nextCode.toNat ∧ s.nextCode.toNat ≤ 4096)
    ∧ (3 ≤ s.width.toNat ∧ s.width.toNat ≤ 12 ∧ s.nextCode.toNat ≤ 2 ^ s.width.toNat
      ∧ (s.width.toNat = 3 ∨ 2 ^ (s.width.toNat - 1) < s.nextCode.toNat))
    ∧ TableInv s.nextCode.toNat s.table
    ∧ (s.havePrefix = true →
      s.prefixCode.toNat < 4 ∨ (6 ≤ s.prefixCode.toNat ∧ s.prefixCode.toNat < s.nextCode.toNat))
    ∧ (s.havePrefix = false → s.prefixCode = 0) ∧ s.bitBuf.toNat < 2 ^ s.bitCnt.toNat
    ∧ (s.err = true → s.cause ≠ .none) ∧ (s.err = false → s.cause = .none ∧ s.errcmd = 0)) : s.Inv :=
  ⟨h.1, h.2.1, h.2.2.1, h.2.2.2.1, h.2.2.2.2.1, h.2.2.2.2.2.1, h.2.2.2.2.2.2.1, h.2.2.2.2.2.2.2.1,
    h.2.2.2.2.2.2.2.2.1, h.2.2.2.2.2.2.2.2.2.1, h.2.2.2.2.2.2.2.2.2.2⟩

/-- The `j`-th entry. -/
def entryAt (j : Nat) : Entry :=
  ⟨BitVec.ofNat 12 (if j / 4 < 4 then j / 4 else j / 4 + 2), BitVec.ofNat 2 (j % 4), BitVec.ofNat 12 (6 + j)⟩

/-- The table of the first `m` entries, newest first. -/
def tableOf : Nat → List Entry
  | 0 => []
  | m + 1 => entryAt m :: tableOf m

theorem mem_tableOf {m : Nat} {e : Entry} (h : e ∈ tableOf m) : ∃ j < m, e = entryAt j := by
  induction m with
  | zero => simp [tableOf] at h
  | succ m ih =>
    rcases List.mem_cons.1 h with rfl | h
    · exact ⟨m, Nat.lt_succ_self m, rfl⟩
    · obtain ⟨j, hj, he⟩ := ih h
      exact ⟨j, Nat.lt_succ_of_lt hj, he⟩

theorem entryAt_key {i j : Nat} (hi : i < 4090) (hj : j < 4090) (hp : (entryAt i).pfx = (entryAt j).pfx)
    (hx : (entryAt i).sym = (entryAt j).sym) : i = j := by
  have h1 := congrArg BitVec.toNat hp
  have h2 := congrArg BitVec.toNat hx
  simp only [entryAt, BitVec.toNat_ofNat] at h1 h2
  split_ifs at h1 <;> omega

theorem entryAt_pfx {j : Nat} (hj : j < 4090) :
    (entryAt j).pfx.toNat < 6 + j ∧ (entryAt j).pfx.toNat < 1026 ∧ (entryAt j).pfx.toNat ≠ 4
      ∧ (entryAt j).pfx.toNat ≠ 5 := by
  simp only [entryAt, BitVec.toNat_ofNat]
  split_ifs <;> omega

theorem tableOf_inv {m : Nat} (hm : m ≤ 4090) : TableInv (6 + m) (tableOf m) := by
  induction m with
  | zero => decide
  | succ m ih =>
    obtain ⟨h1, -, h4, h5⟩ := entryAt_pfx (show m < 4090 by omega)
    have hp : (entryAt m).pfx.toNat < 4 ∨ (6 ≤ (entryAt m).pfx.toNat ∧ (entryAt m).pfx.toNat < 6 + m) := by omega
    refine table_step (n := 6 + m) (x := (entryAt m).sym) (ih (by omega)) (by omega) (by omega) hp ?_
    · rw [lookup_none]
      rintro e he ⟨hp, hx⟩
      obtain ⟨j, hj, rfl⟩ := mem_tableOf he
      exact absurd (entryAt_key (by omega) (by omega) hp hx) (by omega)

/-- A compressor frame whose table holds `m` entries; the prefix is the newest entry's code. -/
def filledState (mode : Mode) (m : Nat) (w : BitVec 4) (buf : Byte) (cnt : BitVec 3) : State :=
  frameState mode (tableOf m) (BitVec.ofNat 13 (6 + m)) w (if m = 0 then 3 else BitVec.ofNat 12 (5 + m)) buf cnt

theorem filledState_inv {mode : Mode} {m : Nat} {w : BitVec 4} {buf : Byte} {cnt : BitVec 3}
    (hmode : mode = .packed ∨ mode = .raw) (hm : m ≤ 4090)
    (hw : 3 ≤ w.toNat ∧ w.toNat ≤ 12 ∧ 6 + m ≤ 2 ^ w.toNat ∧ (w.toNat = 3 ∨ 2 ^ (w.toNat - 1) < 6 + m))
    (hb : buf.toNat < 2 ^ cnt.toNat) : (filledState mode m w buf cnt).Inv := by
  have e : (BitVec.ofNat 13 (6 + m)).toNat = 6 + m := by simp; omega
  refine ⟨fun h => ?_, fun _ => rfl, Nat.zero_le _, ?_, ?_, ?_, fun _ => ?_, fun h => ?_, hb, fun h => ?_,
    fun _ => ⟨rfl, rfl⟩⟩
  · rcases hmode with rfl | rfl <;> simp [filledState, frameState] at h
  · simp only [filledState, frameState, e]; omega
  · simpa only [filledState, frameState, e] using hw
  · simp only [filledState, frameState, e]; exact tableOf_inv hm
  · simp only [filledState, frameState, e]
    split_ifs with h0
    · exact .inl (by decide)
    · right; simp; omega
  · simp [filledState, frameState] at h
  · simp [filledState, frameState, State.reset] at h

/-- The newest entry extends no other: nothing is found behind it while the table is small against its codes. -/
theorem filledState_miss {m : Nat} (h0 : m = 0 ∨ 1021 ≤ m) (hm : m ≤ 4090) (x : Sym) :
    lookup (if m = 0 then 3 else BitVec.ofNat 12 (5 + m)) x (tableOf m) = none := by
  rw [lookup_none]
  rintro e he ⟨hp, -⟩
  obtain ⟨j, hj, rfl⟩ := mem_tableOf he
  have h1 := (entryAt_pfx (show j < 4090 by omega)).2.1
  rw [hp, if_neg (by omega)] at h1
  simp at h1
  omega

/-- The frame of START PACKED and one symbol (P4). -/
theorem packedState_inv : (frameState .packed [] 6 3 1 4 3).Inv := inv_of (by decide)

theorem rawState_inv : (frameState .raw [] 6 3 1 4 3).Inv := inv_of (by decide)

/-- An IDLE state, after one reset. -/
theorem idleState_inv : ({ State.reset with draws := 1 } : State).Inv := inv_of (by decide)

theorem directState_inv {chunk : List Byte} (h : chunk.length ≤ 254) : (directState chunk).Inv :=
  ⟨fun _ => ⟨rfl, rfl, rfl, rfl, rfl, rfl, rfl⟩, fun hm => by simp [directState] at hm, h, idleState_inv.nextCodeRange,
    idleState_inv.widthLeast, idleState_inv.tableCodes, fun hp => by simp [directState, State.reset] at hp, fun _ => rfl,
    idleState_inv.bitsHeld,
    fun he => by simp [directState, State.reset] at he, fun _ => ⟨rfl, rfl⟩⟩

theorem haltedState_inv : haltedState.Inv := inv_of (by decide)

/-! ## Witnesses: states and operands that meet the hypotheses of each statement, clause by clause

A statement about a next state is met through `Reaches`: the step there is, and what is asked of its result. -/

/-- The outcome is a next state with the property `p`. -/
def Reaches (o : Host.Outcome State Fault Refusal) (p : State → Bool) : Bool :=
  match o with
  | .next t => p t
  | _ => false

theorem reaches_next {o : Host.Outcome State Fault Refusal} {p : State → Bool} (h : Reaches o p = true) :
    ∃ t, o = .next t ∧ p t = true := by
  cases o with
  | next t => exact ⟨t, rfl, h⟩
  | fault r => cases r
  | refused r => simp [Reaches] at h

/-- A PACKED frame after START and the symbol 1. -/
def packedState : State := frameState .packed [] 6 3 1 4 3

/-- A RAW frame after START and the symbol 1. -/
def rawState : State := frameState .raw [] 6 3 1 4 3

/-- A RAW frame in which (1, 1) has been learnt and is the prefix's next hit. -/
def hitState : State := frameState .raw [⟨1, 1, 6⟩] 7 3 1 0x0C 6

theorem hitState_inv : hitState.Inv := inv_of (by decide)

/-- A RAW frame right after START. -/
def openState : State := { State.reset with mode := .raw, bitBuf := 4, bitCnt := 3 }

theorem openState_inv : openState.Inv := inv_of (by decide)

/-! ### Encoding and errors -/

theorem witness_DecodeOfEncode : (Instr.start true).wellFormed = true ∧ (Instr.sym 3).wellFormed = true
    ∧ (Instr.pbyte 255).wellFormed = true ∧ Instr.pend.wellFormed = true := by decide

theorem witness_EncodeOfDecode : decode 0x1001 = .ok (.start true) ∧ decode 0x50FF = .ok (.pbyte 0xFF) := by decide

/-- Each selection at the ends of its operand's range, and the clause on words that match no row. -/
theorem witness_WordSelectsCommand : decode 0x2000 = .ok (.sym 0) ∧ decode 0x2003 = .ok (.sym 3)
    ∧ decode 0x5000 = .ok (.pbyte 0) ∧ decode 0x50FF = .ok (.pbyte 0xFF) := by decide

theorem witness_WordSelectsNoCommand : opcodeLegal 0x2004 ∧ ∀ i, decode 0x2004 ≠ .ok i := by
  refine ⟨by decide, fun i h => ?_⟩
  have e : decode 0x2004 = .error .reservedBits := by decide
  rw [e] at h
  cases h

theorem witness_IllegalOpcode : State.reset.err = false ∧ ¬ opcodeLegal 0x0FFF ∧ ¬ opcodeLegal 0x7000
    ∧ ¬ opcodeLegal 0xFFFF := by decide

/-- One reserved bit of OPD, the lowest and the highest, of each row that has any. -/
theorem witness_ReservedBit_opd : State.reset.err = false
    ∧ ([0x1002, 0x1080, 0x2004, 0x2080, 0x3001, 0x3080, 0x4001, 0x4080, 0x6001, 0x6080].all fun w =>
        decide (opcodeLegal w ∧ reservedBitSet w)) = true := by decide +kernel

/-- RSV nonzero, its lowest and highest bit, with the first and the last legal opcode and with PBYTE. -/
theorem witness_ReservedBit_rsv :
    ([0x1100, 0x1800, 0x5100, 0x5800, 0x6100, 0x6800].all fun w => decide (opcodeLegal w ∧ reservedBitSet w)) = true := by
  decide +kernel

theorem witness_ModeTable : State.reset.err = false ∧ State.reset.mode = .idle
    ∧ packedState.err = false ∧ packedState.mode = .packed ∧ rawState.err = false ∧ rawState.mode = .raw
    ∧ (directState []).err = false ∧ (directState []).mode = .direct := by decide

/-- One word for each cause; the second and third words have a lesser cause too. -/
theorem witness_ErrorsArePrecise : State.reset.err = false
    ∧ (∃ t, stepWord 0x2001 State.reset = .next t ∧ t.err = true) ∧ opcodeLegal 0x2001 ∧ ¬ reservedBitSet 0x2001
    ∧ (∃ t, stepWord 0x2004 State.reset = .next t ∧ t.err = true) ∧ opcodeLegal 0x2004 ∧ reservedBitSet 0x2004
    ∧ (∃ t, stepWord 0xF004 State.reset = .next t ∧ t.err = true) ∧ ¬ opcodeLegal 0xF004 :=
  ⟨rfl, reaches_next (p := State.err) (by decide), by decide, by decide, reaches_next (p := State.err) (by decide),
    by decide, by decide, reaches_next (p := State.err) (by decide), by decide⟩

theorem witness_Halted : haltedState.err = true ∧ commandTurnNext haltedState []
    ∧ commandTurnNext { haltedState with turns := [.command, .take] } [.take]
    ∧ ({ haltedState with cmdIn := [0x1000, 0x3000] } : State).cmdIn = 0x1000 :: [0x3000] := by decide

theorem witness_LatchHolds : haltedState.err = true
    ∧ (∃ t, step { haltedState with cmdIn := [0x1000] } = .next t)
    ∧ (∃ t, step { haltedState with turns := [.reset] } = .next t) :=
  ⟨rfl, ⟨_, rfl⟩, ⟨_, rfl⟩⟩

/-! ### Reset and the step -/

theorem witness_ResetTurn : ({ haltedState with turns := [.reset, .take], outQ := [⟨1, false⟩] } : State).turns
    = .reset :: [.take] := rfl

/-- A step of each kind from a state that has the invariants. -/
theorem witness_EveryStepKeeps : packedState.Inv
    ∧ (∃ t, step { packedState with cmdIn := [encode (.sym 1)] } = .next t)
    ∧ (∃ t, step { packedState with turns := [.take], outQ := [⟨1, false⟩] } = .next t)
    ∧ (∃ t, step { packedState with turns := [.reset] } = .next t) :=
  ⟨packedState_inv, ⟨_, rfl⟩, ⟨_, rfl⟩, ⟨_, rfl⟩⟩

theorem witness_StepRuns : commandTurnNext State.reset [] ∧ commandTurnNext { State.reset with turns := [.command] } []
    ∧ ({ State.reset with cmdIn := [0x1001] } : State).cmdIn = 0x1001 :: [] ∧ decode 0x1001 = .ok (.start true) := by
  decide

theorem witness_IdleTurns : (commandTurnNext State.reset [] ∧ State.reset.cmdIn = [])
    ∧ (({ State.reset with turns := [.take], outQ := [⟨1, true⟩] } : State).turns = .take :: []
      ∧ ({ State.reset with turns := [.take], outQ := [⟨1, true⟩] } : State).outQ = ⟨1, true⟩ :: [])
    ∧ (({ State.reset with turns := [.take] } : State).turns = .take :: []
      ∧ ({ State.reset with turns := [.take] } : State).outQ = []) := by decide

/-- With no byte held, and with two. -/
theorem witness_TakingOutput :
    (({ State.reset with cmdIn := [0x1000], turns := [.command] } : State).turns = List.replicate 0 .take ++ [.command])
    ∧ (({ State.reset with cmdIn := [0x1000], turns := [.take, .take, .command], outQ := [⟨1, false⟩, ⟨2, true⟩] } :
        State).turns = List.replicate 2 .take ++ [.command]) := by decide

/-- A full output buffer. -/
def fullState : State :=
  { packedState with outQ := List.replicate (261 + Config.outputExtra) ⟨0, false⟩, turns := [.command, .take] }

theorem witness_HeldOutput : fullState.Inv ∧ fullState.outQ.length ≤ 261 + Config.outputExtra
    ∧ ∃ t, step fullState = .next t := by
  refine ⟨{ packedState_inv with }, by simp [fullState], { fullState with turns := [.take] }, ?_⟩
  rw [step_command (ts := [.take]) rfl]
  exact commandTurn_nil rfl

theorem witness_OutputStreamOnlyGrows : (∃ t, step { hitState with cmdIn := [0x2000] } = .next t)
    ∧ (∀ ts, ({ hitState with cmdIn := [0x2000] } : State).turns ≠ .reset :: ts) :=
  ⟨⟨_, rfl⟩, fun _ h => by cases h⟩

/-- Two words and a take between them. -/
theorem witness_FlowControl :
    Turn.reset ∉ ({ rawState with cmdIn := [0x2001, 0x3000], turns := [.command, .take, .command] } : State).turns
    ∧ ∃ t, Sys2Proof.core.run 3 { rawState with cmdIn := [0x2001, 0x3000], turns := [.command, .take, .command] }
      = .next t :=
  ⟨by decide, _, rfl⟩

/-! ### The ports -/

theorem witness_Status : State.reset.Inv ∧ State.reset.mode = .idle ∧ State.reset.err = false :=
  ⟨{ idleState_inv with }, rfl, rfl⟩

theorem witness_Errcmd : openState.Inv ∧ openState.err = false := ⟨openState_inv, rfl⟩

/-! ### The commands -/

theorem witness_Start : State.reset.err = false ∧ State.reset.mode = .idle ∧ rawState.err = false
    ∧ rawState.mode ≠ .idle ∧ ((0x1002 : Word).extractLsb' 12 4 = 1 ∧ (0x1002 : Word).extractLsb' 1 7 ≠ 0)
    ∧ ((0x1101 : Word).extractLsb' 12 4 = 1 ∧ (0x1101 : Word).extractLsb' 8 4 ≠ 0) := by decide

/-- The first symbol, a hit, a miss, the two modes with no frame for it, and a reserved bit. -/
theorem witness_Sym : (openState.err = false ∧ openState.mode = .raw ∧ openState.havePrefix = false)
    ∧ (hitState.err = false ∧ hitState.mode = .raw ∧ hitState.havePrefix = true
      ∧ lookup hitState.prefixCode 1 hitState.table = some 6 ∧ lookup hitState.prefixCode 0 hitState.table = none)
    ∧ State.reset.mode = .idle ∧ (directState []).mode = .direct
    ∧ ((0x2004 : Word).extractLsb' 12 4 = 2 ∧ (0x2004 : Word).extractLsb' 2 6 ≠ 0)
    ∧ ((0x2800 : Word).extractLsb' 12 4 = 2 ∧ (0x2800 : Word).extractLsb' 8 4 ≠ 0) := by decide

/-- A hit with a full table. -/
theorem witness_Sym_hit_full : ∃ c, lookup 0 0 (tableOf 4090) = some c := by
  have h : lookup 0 0 (tableOf 4090) ≠ none := by
    have : ∀ m, 1 ≤ m → entryAt 0 ∈ tableOf m := by
      intro m hm
      induction m with
      | zero => omega
      | succ m ih =>
        rcases Nat.eq_zero_or_pos m with rfl | h
        · exact List.mem_cons_self
        · exact List.mem_cons_of_mem _ (ih h)
    rw [Ne, lookup_none]
    exact fun hn => hn _ (this 4090 (by decide)) ⟨rfl, rfl⟩
  exact Option.ne_none_iff_exists'.1 h

theorem filledState_nextCode (mode : Mode) {m : Nat} (w : BitVec 4) (buf : Byte) (cnt : BitVec 3) (hm : m ≤ 4090) :
    (filledState mode m w buf cnt).nextCode.toNat = 6 + m := by
  have e : (filledState mode m w buf cnt).nextCode = BitVec.ofNat 13 (6 + m) := rfl
  rw [e, BitVec.toNat_ofNat]
  omega

theorem filledState_lookup (mode : Mode) {m : Nat} (w : BitVec 4) (buf : Byte) (cnt : BitVec 3)
    (h0 : m = 0 ∨ 1021 ≤ m) (hm : m ≤ 4090) (x : Sym) :
    lookup (filledState mode m w buf cnt).prefixCode x (filledState mode m w buf cnt).table = none :=
  filledState_miss h0 hm x

theorem filledState_open (mode : Mode) (m : Nat) (w : BitVec 4) (buf : Byte) (cnt : BitVec 3) :
    (filledState mode m w buf cnt).err = false ∧ (filledState mode m w buf cnt).mode = mode
      ∧ (filledState mode m w buf cnt).havePrefix = true := ⟨rfl, rfl, rfl⟩

/-- A miss with room in the table: the first entry of all, and the last. -/
theorem witness_MissLearns : (filledState .raw 0 3 4 3).Inv ∧ (filledState .raw 0 3 4 3).nextCode.toNat < 4096
    ∧ (∀ x, lookup (filledState .raw 0 3 4 3).prefixCode x (filledState .raw 0 3 4 3).table = none)
    ∧ (filledState .packed 4089 12 0 0).Inv ∧ (filledState .packed 4089 12 0 0).nextCode.toNat < 4096
    ∧ (∀ x, lookup (filledState .packed 4089 12 0 0).prefixCode x (filledState .packed 4089 12 0 0).table = none) :=
  ⟨filledState_inv (.inr rfl) (by decide) (by decide) (by decide),
    by rw [filledState_nextCode _ _ _ _ (by decide)]; decide,
    fun x => filledState_lookup _ _ _ _ (.inl rfl) (by decide) x,
    filledState_inv (.inl rfl) (by decide) (by decide) (by decide),
    by rw [filledState_nextCode _ _ _ _ (by decide)]; decide,
    fun x => filledState_lookup _ _ _ _ (.inr (by decide)) (by decide) x⟩

/-- A miss on the full table. -/
theorem witness_MissResets : (filledState .packed 4090 12 127 7).Inv
    ∧ (filledState .packed 4090 12 127 7).err = false ∧ (filledState .packed 4090 12 127 7).mode = .packed
    ∧ (filledState .packed 4090 12 127 7).havePrefix = true ∧ (filledState .packed 4090 12 127 7).nextCode = 4096
    ∧ (∀ x, lookup (filledState .packed 4090 12 127 7).prefixCode x (filledState .packed 4090 12 127 7).table = none) :=
  ⟨filledState_inv (.inl rfl) (by decide) (by decide) (by decide), (filledState_open _ _ _ _ _).1,
    (filledState_open _ _ _ _ _).2.1, (filledState_open _ _ _ _ _).2.2,
    BitVec.eq_of_toNat_eq (filledState_nextCode _ _ _ _ (by decide)),
    fun x => filledState_lookup _ _ _ _ (.inr (by decide)) (by decide) x⟩

/-- END of an empty RAW frame and of a PACKED frame with a chunk, and its two errors. -/
theorem witness_End : (openState.Inv ∧ openState.err = false ∧ openState.mode = .raw)
    ∧ (packedState.Inv ∧ packedState.err = false ∧ packedState.mode = .packed)
    ∧ State.reset.mode = .idle ∧ (directState []).mode = .direct
    ∧ ((0x3001 : Word).extractLsb' 12 4 = 3 ∧ (0x3001 : Word).extractLsb' 0 12 ≠ 0)
    ∧ ((0x3800 : Word).extractLsb' 12 4 = 3 ∧ (0x3800 : Word).extractLsb' 0 12 ≠ 0) :=
  ⟨⟨openState_inv, rfl, rfl⟩, ⟨packedState_inv, rfl, rfl⟩, rfl, rfl, by decide, by decide⟩

theorem witness_Pstart : State.reset.err = false ∧ State.reset.mode = .idle ∧ packedState.mode ≠ .idle
    ∧ ((0x4001 : Word).extractLsb' 12 4 = 4 ∧ (0x4001 : Word).extractLsb' 0 12 ≠ 0) := by decide

theorem directState_pkCnt (n : Nat) (b : Byte) : (directState (List.replicate n b)).pkCnt = n := List.length_replicate

/-- The chunk empty, one short of the last byte but one, and one short of full. -/
theorem witness_Pbyte : (directState []).err = false ∧ (directState []).mode = .direct ∧ (directState []).pkCnt < 254
    ∧ (directState (List.replicate 253 1)).pkCnt < 254 ∧ (directState (List.replicate 254 1)).pkCnt = 254
    ∧ State.reset.mode ≠ .direct
    ∧ ((0x5100 : Word).extractLsb' 12 4 = 5 ∧ (0x5100 : Word).extractLsb' 8 4 ≠ 0) :=
  ⟨rfl, rfl, by decide, by rw [directState_pkCnt]; decide, directState_pkCnt 254 1, by decide, by decide⟩

/-- The chunk empty, with one byte, and with as many as it can hold. -/
theorem witness_Pend : (directState []).err = false ∧ (directState []).mode = .direct ∧ (directState []).pkCnt = 0
    ∧ (directState [7]).pkCnt = 1 ∧ (directState (List.replicate 254 1)).pkCnt = 254 ∧ State.reset.mode ≠ .direct
    ∧ ((0x6001 : Word).extractLsb' 12 4 = 6 ∧ (0x6001 : Word).extractLsb' 0 12 ≠ 0) :=
  ⟨rfl, rfl, rfl, rfl, directState_pkCnt 254 1, by decide, by decide⟩

/-! ### The primitives -/

/-- The least and the largest width, with the accumulator empty and full. -/
theorem witness_EmitCode :
    (State.reset.bitBuf.toNat < 2 ^ State.reset.bitCnt.toNat ∧ (7 : Code).toNat < 2 ^ State.reset.width.toNat)
    ∧ ((frameState .raw [] 4096 12 0 127 7).bitBuf.toNat < 2 ^ (frameState .raw [] 4096 12 0 127 7).bitCnt.toNat
      ∧ (4095 : Code).toNat < 2 ^ (frameState .raw [] 4096 12 0 127 7).width.toNat) := by decide

theorem witness_LookupAndInsert : TableInv 7 [⟨1, 1, 6⟩] ∧ lookup 1 1 [⟨1, 1, 6⟩] = some 6
    ∧ lookup 1 2 [⟨1, 1, 6⟩] = none ∧ TableInv 4096 (tableOf 4090) :=
  ⟨by decide, by decide, by decide, tableOf_inv (m := 4090) (by decide)⟩

/-- With and without a prefix, and with the table full. -/
theorem witness_CodesFit : (rawState.Inv ∧ rawState.havePrefix = true) ∧ openState.Inv
    ∧ (filledState .raw 4090 12 0 0).Inv :=
  ⟨⟨rawState_inv, rfl⟩, openState_inv, filledState_inv (.inr rfl) (by decide) (by decide) (by decide)⟩

/-- `nextCode` 6, 8 and 9, 2048 and 2049, and 4096: where the widths 3, 4, 11 and 12 begin and end. -/
theorem witness_Width : (filledState .raw 0 3 0 0).Inv ∧ (filledState .raw 2 3 0 0).Inv
    ∧ (filledState .raw 3 4 0 0).Inv ∧ (filledState .raw 10 4 0 0).Inv ∧ (filledState .raw 11 5 0 0).Inv
    ∧ (filledState .raw 2042 11 0 0).Inv ∧ (filledState .raw 2043 12 0 0).Inv ∧ (filledState .raw 4090 12 0 0).Inv := by
  refine ⟨?_, ?_, ?_, ?_, ?_, ?_, ?_, ?_⟩ <;> exact filledState_inv (.inr rfl) (by decide) (by decide) (by decide)

/-- An empty table, one entry, and the full one, with the first and the last code. -/
theorem witness_Table : State.reset.Inv ∧ (hitState.Inv ∧ 6 ≤ 6 ∧ 6 < hitState.nextCode.toNat)
    ∧ ((filledState .raw 4090 12 0 0).Inv ∧ 4095 < (filledState .raw 4090 12 0 0).nextCode.toNat) :=
  ⟨{ idleState_inv with }, ⟨hitState_inv, by decide, by decide⟩,
    filledState_inv (.inr rfl) (by decide) (by decide) (by decide),
    by rw [filledState_nextCode _ _ _ _ (by decide)]; decide⟩

/-! ### Whole-machine rules -/

/-- Each of the four commands, where it changes the mode. -/
theorem witness_OnlyFrameCommands : (∃ t, exec (.start true) State.reset = .next t ∧ t.mode ≠ State.reset.mode)
    ∧ (∃ t, exec .pstart State.reset = .next t ∧ t.mode ≠ State.reset.mode)
    ∧ (∃ t, exec .endFrame packedState = .next t ∧ t.mode ≠ packedState.mode)
    ∧ (∃ t, exec .pend (directState []) = .next t ∧ t.mode ≠ (directState []).mode) :=
  ⟨⟨_, rfl, by decide⟩, ⟨_, rfl, by decide⟩, ⟨_, rfl, by decide⟩, ⟨_, rfl, by decide⟩⟩

theorem witness_IdleUnique : haltedState.Inv ∧ haltedState.mode = .idle
    ∧ ({ State.reset with draws := 1 } : State).Inv ∧ ({ State.reset with draws := 1 } : State).mode = .idle :=
  ⟨haltedState_inv, rfl, idleState_inv, rfl⟩

/-- END and PEND that take effect, END that is an error, and another command. -/
theorem witness_LastMark : (packedState.Inv ∧ packedState.err = false
      ∧ ∃ t, exec .endFrame packedState = .next t ∧ t.err = false)
    ∧ ((directState []).Inv ∧ (directState []).err = false ∧ ∃ t, exec .pend (directState []) = .next t ∧ t.err = false)
    ∧ ((directState []).Inv ∧ ∃ t, exec .endFrame (directState []) = .next t ∧ t.err = true)
    ∧ (hitState.Inv ∧ ∃ t, exec (.sym 0) hitState = .next t ∧ t.err = false) :=
  ⟨⟨packedState_inv, rfl, _, rfl, rfl⟩, ⟨directState_inv (by decide), rfl, _, rfl, rfl⟩,
    ⟨directState_inv (by decide), _, rfl, rfl⟩, ⟨hitState_inv, _, rfl, rfl⟩⟩

/-- Each command in a mode in which it is legal. -/
theorem witness_OutputBounds : State.reset.Inv ∧ State.reset.err = false
    ∧ (∃ t, exec (.start false) State.reset = .next t ∧ t.err = false)
    ∧ (∃ t, exec .pstart State.reset = .next t ∧ t.err = false)
    ∧ (rawState.Inv ∧ ∃ t, exec (.sym 0) rawState = .next t ∧ t.err = false)
    ∧ (packedState.Inv ∧ ∃ t, exec (.sym 0) packedState = .next t ∧ t.err = false)
    ∧ (∃ t, exec .endFrame rawState = .next t ∧ t.err = false)
    ∧ (∃ t, exec .endFrame packedState = .next t ∧ t.err = false)
    ∧ ((directState []).Inv ∧ ∃ t, exec (.pbyte 1) (directState []) = .next t ∧ t.err = false)
    ∧ (∃ t, exec .pend (directState []) = .next t ∧ t.err = false) :=
  ⟨{ idleState_inv with }, rfl, ⟨_, rfl, rfl⟩, ⟨_, rfl, rfl⟩, ⟨rawState_inv, _, rfl, rfl⟩, ⟨packedState_inv, _, rfl, rfl⟩,
    ⟨_, rfl, rfl⟩, ⟨_, rfl, rfl⟩, ⟨directState_inv (by decide), _, rfl, rfl⟩, _, rfl, rfl⟩

theorem witness_StepDepends : ∃ t, stepWord 0x2000 hitState = .next t := ⟨_, rfl⟩

/-! ### Whole frames and the assembler -/

/-- IDLE with no error: after reset, and after a reset of a block with bytes already taken. -/
theorem witness_Frames : ({ State.reset with draws := 1, taken := [⟨1, true⟩] } : State).Inv
    ∧ ({ State.reset with draws := 1, taken := [⟨1, true⟩] } : State).err = false
    ∧ ({ State.reset with draws := 1, taken := [⟨1, true⟩] } : State).mode = .idle :=
  ⟨{ idleState_inv with }, rfl, rfl⟩

theorem witness_EveryFrameSequence :
    ({ State.reset with cmdIn := [0x1001, 0x2001, 0x3000, 0x4000, 0x6000], draws := 1 } : State).Inv
    ∧ ({ State.reset with cmdIn := [0x1001, 0x2001, 0x3000, 0x4000, 0x6000], draws := 1 } : State).cmdIn
      = [Frame.raw [1], .direct []].flatMap wordsOf :=
  ⟨{ idleState_inv with }, by decide⟩

/-- A last chunk that is full, and one that is not with a full one before it. -/
theorem witness_PackLength : ((List.replicate 255 (1 : Byte)).length + 254) / 255 = 1
    ∧ ((List.replicate 256 (1 : Byte)).length + 254) / 255 = 2 := by
  rw [List.length_replicate, List.length_replicate]
  decide

theorem witness_Pseudo : (∀ n ∈ [0, 3], n ≤ 3) ∧ (∀ n ∈ [0, 255], n ≤ 255) := by decide

theorem witness_WrittenLines : ';' ∉ ['E', 'N', 'D'] := by decide

end Sys2Proof.Tests
end

-- ==== The status ports and the state's invariants (10_state.md) ====
section
/-! The status ports (R28, R29, R166) and what the invariants say of the width and of the table (R32, R33). -/

namespace Sys2Proof.Machine

/-! ## The status ports -/

/-- STATUS as its fields side by side, the highest first (R28). -/
theorem statusPort_eq_append (s : State) : s.statusPort =
    0#7 ++ s.nextCode ++ s.width ++ 0#2 ++ s.cause.bits ++ BitVec.ofBool s.err ++ s.mode.bits := by
  refine Eq.trans ?_ (BitVec.setWidth_eq (n := 32) _)
  simp only [State.statusPort, BitVec.setWidth_append_eq_shiftLeft_setWidth_or, BitVec.shiftLeft_or_distrib,
    ← BitVec.shiftLeft_add, BitVec.setWidth_zero, BitVec.zero_shiftLeft, BitVec.zero_or, BitVec.or_zero]
  ac_rfl

theorem statusPort_mode (s : State) : s.statusPort.extractLsb' 0 2 = s.mode.bits := by
  rw [statusPort_eq_append]
  exact BitVec.extractLsb'_append_eq_right

theorem statusPort_err (s : State) : s.statusPort.extractLsb' 2 1 = BitVec.ofBool s.err := by
  simp (disch := decide) only [statusPort_eq_append, BitVec.extractLsb'_append_eq_of_le, Nat.reduceSub,
    BitVec.extractLsb'_append_eq_right]

theorem statusPort_cause (s : State) : s.statusPort.extractLsb' 3 3 = s.cause.bits := by
  simp (disch := decide) only [statusPort_eq_append, BitVec.extractLsb'_append_eq_of_le, Nat.reduceSub,
    BitVec.extractLsb'_append_eq_right]

theorem statusPort_zero_below_width (s : State) : s.statusPort.extractLsb' 6 2 = 0#2 := by
  simp (disch := decide) only [statusPort_eq_append, BitVec.extractLsb'_append_eq_of_le, Nat.reduceSub,
    BitVec.extractLsb'_append_eq_right]

theorem statusPort_width (s : State) : s.statusPort.extractLsb' 8 4 = s.width := by
  simp (disch := decide) only [statusPort_eq_append, BitVec.extractLsb'_append_eq_of_le, Nat.reduceSub,
    BitVec.extractLsb'_append_eq_right]

theorem statusPort_nextCode (s : State) : s.statusPort.extractLsb' 12 13 = s.nextCode := by
  simp (disch := decide) only [statusPort_eq_append, BitVec.extractLsb'_append_eq_of_le, Nat.reduceSub,
    BitVec.extractLsb'_append_eq_right]

theorem statusPort_zero_above_nextCode (s : State) : s.statusPort.extractLsb' 25 7 = 0#7 := by
  simp (disch := decide) only [statusPort_eq_append, BitVec.extractLsb'_append_eq_of_le]
  rfl

/-- In IDLE with no error STATUS has its reset value: R31 fixes `width` and `nextCode`, R37 the cause. -/
theorem statusPort_idle {s : State} (h : s.Inv) (hm : s.mode = .idle) (he : s.err = false) :
    s.statusPort = 0x00006300 := by
  obtain ⟨-, hn, hw, -⟩ := h.compressorIdle (.inl hm)
  obtain ⟨hc, -⟩ := h.latchClear he
  rw [State.statusPort, hm, he, hc, hn, hw]
  rfl

/-- Settles O23: STATUS is its fields side by side, so each is read back where it stands. -/
theorem statusShowsItsFields : Obligations.StatusShowsItsFields := fun s =>
  ⟨statusPort_mode s, statusPort_err s, statusPort_cause s, statusPort_zero_below_width s, statusPort_width s,
    statusPort_nextCode s, statusPort_zero_above_nextCode s, statusPort_idle⟩

/-- The `err` line, bit 2 of STATUS, is the latch (R166). -/
@[simp] theorem errLine_eq (s : State) : s.errLine = s.err := by
  have h := congrArg (BitVec.getLsbD · 0) (statusPort_err s)
  simpa [State.errLine] using h

/-- Settles O24: ERRCMD is `errcmd` itself, bit 2 of STATUS is the latch, and R37 clears `errcmd` with it. -/
theorem errcmdPortAndErrLine : Obligations.ErrcmdPortAndErrLine :=
  fun s => ⟨rfl, errLine_eq s, fun h he => (h.latchClear he).2⟩

/-! ## The width -/

/-- The width is 3 as long as `nextCode` fits 3 bits (R32). -/
theorem Inv_width_eq_three {s : State} (h : s.Inv) (hn : s.nextCode.toNat ≤ 8) : s.width = 3 := by
  obtain ⟨h3, -, -, hw⟩ := h.widthLeast
  have hw : s.width.toNat = 3 := hw.elim id fun hlt => by
    have : s.width.toNat - 1 < 3 := (Nat.pow_lt_pow_iff_right (by decide)).1 (hlt.trans_le hn : _ < 2 ^ 3)
    omega
  exact BitVec.eq_of_toNat_eq hw

/-- Above 8, no smaller width holds `nextCode` (R32). -/
theorem Inv_width_le {s : State} (h : s.Inv) (hn : 8 < s.nextCode.toNat) {k : Nat} (hk : s.nextCode.toNat ≤ 2 ^ k) :
    s.width.toNat ≤ k := by
  obtain ⟨-, -, -, hw⟩ := h.widthLeast
  have hlt : 2 ^ (s.width.toNat - 1) < s.nextCode.toNat := hw.elim (fun hw => by rw [hw]; omega) id
  have : s.width.toNat - 1 < k := (Nat.pow_lt_pow_iff_right (by decide)).1 (hlt.trans_le hk)
  omega

/-- Between two powers of two the width is the upper exponent (R32). -/
theorem Inv_width_eq_succ {s : State} (h : s.Inv) {k : Nat} (h3 : 3 ≤ k) (hlo : 2 ^ k < s.nextCode.toNat)
    (hhi : s.nextCode.toNat ≤ 2 ^ (k + 1)) : s.width.toNat = k + 1 := by
  have h8 : 2 ^ 3 ≤ 2 ^ k := Nat.pow_le_pow_right (by decide) h3
  have hle : s.width.toNat ≤ k + 1 := Inv_width_le h (by omega) hhi
  obtain ⟨-, -, hfits, -⟩ := h.widthLeast
  have hlt : k < s.width.toNat := (Nat.pow_lt_pow_iff_right (by decide)).1 (hlo.trans_le hfits)
  omega

/-- Settles O35: the invariant's width is 3 or the least that holds `nextCode`. -/
theorem widthIsAFunctionOfNextCode : Obligations.WidthIsAFunctionOfNextCode := by
  intro s h
  obtain ⟨-, h12, hfits, -⟩ := h.widthLeast
  exact ⟨Inv_width_eq_three h, fun hn => ⟨hfits, fun _ => Inv_width_le h hn⟩, hfits, h12,
    fun _ h3 _ => Inv_width_eq_succ h h3⟩

/-! ## The table -/

section
variable {n : Nat} {t : List Entry} (h : TableInv n t)
include h

/-- One entry for each code from 6 on (R33). -/
theorem TableInv_length : t.length = n - 6 := by
  simpa using congrArg List.length h.1

/-- Every code from 6 to `n - 1` is some entry's (R33). -/
theorem TableInv_exists_code {c : Nat} (h6 : 6 ≤ c) (hc : c < n) : ∃ e ∈ t, e.code.toNat = c := by
  rw [← List.mem_map, h.1, List.mem_reverse, List.mem_range'_1]
  omega

/-- No two entries have one code (R33). -/
theorem TableInv_code_inj {e f : Entry} (he : e ∈ t) (hf : f ∈ t) (hc : e.code.toNat = f.code.toNat) : e = f := by
  have hnodup : (t.map fun e => e.code.toNat).Nodup := by
    rw [h.1, List.nodup_reverse]
    exact List.nodup_range'
  exact List.inj_on_of_nodup_map hnodup he hf hc

/-- No two entries have one key (R33). -/
theorem TableInv_key_inj {e f : Entry} (he : e ∈ t) (hf : f ∈ t) (hp : e.pfx = f.pfx) (hx : e.sym = f.sym) : e = f :=
  List.inj_on_of_nodup_map h.2.1 he hf (Prod.ext hp hx)

end

/-- Settles O36: the codes of the table are a range in order and its keys a list with no repetition. -/
theorem tableHoldsEachCodeOnce : Obligations.TableHoldsEachCodeOnce := by
  intro s hs
  have h := hs.tableCodes
  have ⟨_, _, hkeys⟩ := h
  obtain ⟨-, hmax⟩ := hs.nextCodeRange
  have hlen := TableInv_length h
  refine ⟨hlen, by omega, fun c h6 hc => ?_, fun e he => ?_, fun e he f hf => TableInv_key_inj h he hf⟩
  · obtain ⟨e, he, rfl⟩ := TableInv_exists_code h h6 hc
    exact ⟨e, he, rfl, fun f hf hfe => TableInv_code_inj h hf he hfe⟩
  · obtain ⟨h6, hlt⟩ := table_code_lt h he
    exact ⟨h6, hlt, hkeys e he⟩

end Sys2Proof.Machine
end

-- ==== The output stream, its marks and flow control (20_memory.md) ====
section
/-! The output stream: where the `last` mark goes (R58), and that neither flow control nor the host's takes change what
the accepted words do to the block and to the stream (R52, R60). -/

namespace Sys2Proof.Machine

/-! ## The marks -/

/-- The output of the miss of a SYM carries no mark: it is what `EmitCode` puts out, once or twice (R108). -/
theorem miss_unmarked (x : Sym) (s : State) : ∃ bs, (miss x s).outQ = s.outQ ++ unmarked bs := by
  have h₁ := (emitCode_out s.prefixCode s).1
  by_cases hn : s.nextCode.toNat < 4096
  · exact ⟨_, by rw [miss_room x s hn, h₁]⟩
  · have h₂ := (emitCode_out Config.clear (emitCode s.prefixCode s)).1
    exact ⟨_, by rw [miss_full x s hn, h₂, h₁, List.append_assoc, ← unmarked_append]⟩

theorem symEffect_unmarked (x : Sym) (s : State) : ∃ bs, (symEffect x s).outQ = s.outQ ++ unmarked bs := by
  unfold symEffect
  split
  · exact ⟨[], by simp⟩
  · split
    · exact ⟨[], by simp⟩
    · exact miss_unmarked x s

/-- Only END and PEND mark a byte (R58). -/
theorem effectOf_unmarked {i : Instr} (hi : ¬ (i = .endFrame ∨ i = .pend)) (s : State) :
    ∃ bs, (effectOf i s).outQ = s.outQ ++ unmarked bs := by
  cases i with
  | start raw => exact ⟨[], by simp [effectOf, startEffect_eq]⟩
  | sym x => exact symEffect_unmarked x s
  | endFrame => exact absurd (.inl rfl) hi
  | pstart => exact ⟨[], by simp [effectOf, pstartEffect]⟩
  | pbyte b => exact ⟨_, by rw [effectOf, packByte_eq]⟩
  | pend => exact absurd (.inr rfl) hi

/-- An effect that outputs unmarked bytes, one at least, has its last one marked and no other (R58). -/
theorem withLastMark_outQ {f : State → State} {s : State} {bs : List Byte} (hne : bs ≠ [])
    (hf : (f { s with outQ := [] }).outQ = unmarked bs) :
    ∃ as b, (withLastMark f s).outQ = s.outQ ++ (unmarked as ++ [⟨b, true⟩]) := by
  obtain ⟨as, b, rfl⟩ := (List.eq_nil_or_concat' bs).resolve_left hne
  refine ⟨as, b, congrArg (s.outQ ++ ·) ?_⟩
  rw [hf, unmarked_append]
  exact markLast_append _ _

theorem pack_ne_nil (ys : List Byte) : pack ys ≠ [] := by simp [pack]

theorem packTail_ne_nil (c : List Byte) : packTail c ≠ [] := by simp [packTail]

/-- END outputs one byte at least, whichever way its bytes go, and latches no error (R58, R112). -/
theorem endEffect_out {s : State} (h : s.Inv) (hm : s.mode = .packed ∨ s.mode = .raw) :
    (endEffect s).err = s.err ∧ ∃ bs, bs ≠ [] ∧ (endEffect s).outQ = s.outQ ++ unmarked bs := by
  obtain ⟨bs, pad, -, -, hlen, -, heq⟩ := endEffect_eq h hm
  refine ⟨by rw [heq], _, ?_, by rw [heq]⟩
  split
  · exact List.ne_nil_of_length_pos hlen
  · exact pack_ne_nil _

/-- An END or PEND that takes effect marks its last byte and no other (R58). -/
theorem effectOf_marks_last {i : Instr} {s : State} (hi : i = .endFrame ∨ i = .pend) (h : s.Inv)
    (hl : legalIn i s.mode = true) :
    (effectOf i s).err = s.err ∧ ∃ as b, (effectOf i s).outQ = s.outQ ++ (unmarked as ++ [⟨b, true⟩]) := by
  rcases hi with rfl | rfl
  · have hm : s.mode = .packed ∨ s.mode = .raw := by simpa [legalIn] using hl
    have hdrained : ({ s with outQ := [] } : State).Inv := { h with }
    obtain ⟨herr, bs, hne, hout⟩ := endEffect_out hdrained hm
    exact ⟨herr, withLastMark_outQ hne hout⟩
  · have herr : (effectOf .pend s).err = s.err := by simp [effectOf, withLastMark, pendEffect, packEnd_eq]
    exact ⟨herr, withLastMark_outQ (packTail_ne_nil s.pkBuf) (by simp [pendEffect, packEnd_eq])⟩

/-- Settles O39: by what `exec` can do; an error entry outputs nothing, and of the effects only END's and PEND's
mark a byte, their last. -/
theorem lastMarkOnExactlyTheLastByte : Obligations.LastMarkOnExactlyTheLastByte := by
  intro i s t h he ht
  rcases exec_cases ht with ⟨he', -⟩ | ⟨-, hl, rfl⟩ | ⟨-, -, rfl⟩
  · simp [he] at he'
  · by_cases hi : i = .endFrame ∨ i = .pend
    · obtain ⟨herr, as, b, hout⟩ := effectOf_marks_last hi h hl
      exact ⟨_, hout, by rw [if_pos ⟨hi, herr.trans he⟩]; exact ⟨as, b, rfl⟩⟩
    · obtain ⟨bs, hout⟩ := effectOf_unmarked hi s
      exact ⟨_, hout, by rw [if_neg fun hc => hi hc.1]; exact ⟨bs, rfl⟩⟩
  · exact ⟨[], by simp, by simp⟩

/-! ## A word and the ports -/

/-- What a word does is local: it only appends to the bytes held, and does the same to the block, and appends the
same bytes, whatever stands at the ports (R60). -/
theorem stepWord_local {w : Word} {s t : State} (p : State) (h : stepWord w s = .next t) :
    ∃ new, t.outQ = s.outQ ++ new
      ∧ stepWord w (s.withPortsOf p) = .next { t.withPortsOf p with outQ := p.outQ ++ new } := by
  rcases stepWord_cases h with ⟨he, rfl⟩ | ⟨he, e, hd, rfl⟩ | ⟨he, i, hd, hl, rfl⟩ | ⟨he, i, hd, hl, rfl⟩
  · exact ⟨[], by simp, by rw [List.append_nil]; exact stepWord_halted he⟩
  · exact ⟨[], by simp, by rw [List.append_nil]; exact stepWord_error he hd⟩
  · obtain ⟨new, hout, hports⟩ := local_effect i s p
    exact ⟨new, hout, by rw [stepWord_ok hd, exec_eq_checked, ← hports]; exact checked_legal he hl⟩
  · exact ⟨[], by simp, by
      rw [stepWord_ok hd, exec_eq_checked, List.append_nil]
      exact checked_illegal he hl⟩

/-- A word leaves the ports alone but for the bytes it outputs. -/
theorem stepWord_ports {w : Word} {s t : State} (h : stepWord w s = .next t) :
    t.cmdIn = s.cmdIn ∧ t.turns = s.turns ∧ t.taken = s.taken ∧ t.draws = s.draws := by
  obtain ⟨new, -, hs⟩ := stepWord_local s h
  have ht : t = { t.withPortsOf s with outQ := s.outQ ++ new } := Host.Outcome.next.inj (h.symm.trans hs)
  rw [ht]
  exact ⟨rfl, rfl, rfl, rfl⟩

/-! ## Flow control -/

/-- `s` and `t` hold the same block and have put out the same stream, wherever the host stands in taking it and
whatever else it offers. -/
def SameStream (s t : State) : Prop := s.withPortsOf t = t ∧ s.output = t.output

theorem SameStream.refl (s : State) : SameStream s s := ⟨rfl, rfl⟩

theorem withPortsOf_withPortsOf (s t p : State) : (s.withPortsOf t).withPortsOf p = s.withPortsOf p := rfl

theorem SameStream.withPortsOf_eq {s t : State} (h : SameStream s t) (p : State) :
    s.withPortsOf p = t.withPortsOf p := by
  rw [← withPortsOf_withPortsOf s t, h.1]

theorem SameStream.trans {s t u : State} (h : SameStream s t) (h' : SameStream t u) : SameStream s u :=
  ⟨(h.withPortsOf_eq u).trans h'.1, h.2.trans h'.2⟩

/-- What the host offers and plans is neither block nor stream. -/
theorem SameStream.of_offers (s : State) (ws : List Word) (ts : List Turn) :
    SameStream { s with cmdIn := ws, turns := ts } s := ⟨rfl, rfl⟩

@[simp] theorem takeByte_cmdIn (s : State) : (takeByte s).cmdIn = s.cmdIn := by
  unfold takeByte
  split <;> rfl

@[simp] theorem takeByte_turns (s : State) : (takeByte s).turns = s.turns := by
  unfold takeByte
  split <;> rfl

/-- A take moves a byte within the stream (R189). -/
theorem takeByte_sameStream (s : State) : SameStream (takeByte s) s := by
  rcases takeByte_cases s with ⟨-, h⟩ | ⟨b, rest, hq, h⟩
  · rw [h]
    exact .refl s
  · rw [h]
    exact ⟨rfl, by simp [State.output, hq]⟩

/-- A word keeps the relation (R60). -/
theorem sameStream_stepWord {w : Word} {s s' t : State} (hs : SameStream s s') (h : stepWord w s = .next t) :
    ∃ t', stepWord w s' = .next t' ∧ SameStream t t' := by
  obtain ⟨hblock, hout⟩ := hs
  obtain ⟨new, hnew, hstep⟩ := stepWord_local s' h
  obtain ⟨-, -, htaken, -⟩ := stepWord_ports h
  rw [hblock] at hstep
  refine ⟨_, hstep, rfl, ?_⟩
  calc t.output = s.output ++ new := by simp [State.output, htaken, hnew]
    _ = s'.output ++ new := by rw [hout]
    _ = _ := by simp [State.output]

/-- So does a sequence of words. -/
theorem sameStream_runWords {ws : List Word} {s s' t : State} (hs : SameStream s s') (h : runWords ws s = .next t) :
    ∃ t', runWords ws s' = .next t' ∧ SameStream t t' := by
  induction ws generalizing s s' with
  | nil => cases h; exact ⟨s', rfl, hs⟩
  | cons w ws ih =>
    obtain ⟨u, hu⟩ := stepWord_next w s
    obtain ⟨u', hu', hsame⟩ := sameStream_stepWord hs hu
    rw [runWords_cons hu] at h
    rw [runWords_cons hu']
    exact ih hsame h

/-- From `s` to `t` the words `ws` have been accepted, and the block and the stream of `t` are those of the fold of
`Step` over them (R60). -/
def Accepted (ws : List Word) (s t : State) : Prop :=
  s.cmdIn = ws ++ t.cmdIn ∧ ∃ u, runWords ws s = .next u ∧ SameStream t u

theorem Accepted.nil {s t : State} (hc : s.cmdIn = t.cmdIn) (hs : SameStream t s) : Accepted [] s t :=
  ⟨hc, s, rfl, hs⟩

theorem Accepted.append {vs ws : List Word} {s t u : State} (h : Accepted vs s t) (h' : Accepted ws t u) :
    Accepted (vs ++ ws) s u := by
  obtain ⟨hoffered, s', hvs, hs'⟩ := h
  obtain ⟨hoffered', t', hws, ht'⟩ := h'
  obtain ⟨u', hu', hsame⟩ := sameStream_runWords hs' hws
  exact ⟨by rw [hoffered, hoffered', List.append_assoc], u', by rw [runWords_append hvs, hu'], ht'.trans hsame⟩

/-- A command turn accepts one word or none (R59, R189). -/
theorem commandTurn_accepted {s t : State} (h : commandTurn s = .next t) :
    t.turns = s.turns ∧ ∃ ws, Accepted ws s t := by
  rcases commandTurn_cases h with rfl | ⟨w, rest, hc, hw, -⟩
  · exact ⟨rfl, [], .nil rfl (.refl _)⟩
  · obtain ⟨hcmd, hturns, -, -⟩ := stepWord_ports hw
    obtain ⟨u, hu, hsame⟩ := sameStream_stepWord (.of_offers s rest s.turns) hw
    exact ⟨hturns, [w], by rw [hc, hcmd, List.singleton_append], u, runWords_cons hu, hsame⟩

/-- Every step but a reset accepts one word or none (R59, R189). -/
theorem step_accepted {s t : State} (hr : Turn.reset ∉ s.turns) (h : step s = .next t) :
    Turn.reset ∉ t.turns ∧ ∃ ws, Accepted ws s t := by
  have hlater {v : Turn} {ts : List Turn} (hts : s.turns = v :: ts) : Turn.reset ∉ ts :=
    fun hmem => hr (hts ▸ List.mem_cons_of_mem v hmem)
  have hturn (ts : List Turn) : Accepted [] s { s with turns := ts } := .nil rfl (.of_offers s s.cmdIn ts)
  rcases step_cases h with ⟨ts, hts, hcommand⟩ | ⟨ts, hts, rfl⟩ | ⟨ts, hts, -⟩
  · obtain ⟨hturns, ws, hws⟩ := commandTurn_accepted hcommand
    refine ⟨?_, _, (hturn ts).append hws⟩
    rw [hturns]
    rcases hts with hts | ⟨-, rfl⟩
    · exact hlater hts
    · exact List.not_mem_nil
  · refine ⟨?_, _, (hturn ts).append (.nil (takeByte_cmdIn _).symm (takeByte_sameStream _))⟩
    rw [takeByte_turns]
    exact hlater hts
  · exact absurd (hts ▸ List.mem_cons_self) hr

/-- A run of one step or more is a step and a run. -/
theorem run_succ_cases {s t : State} {k : Nat} (h : core.run (k + 1) s = .next t) :
    ∃ u, step s = .next u ∧ core.run k u = .next t := by
  cases hs : step s with
  | next u => exact ⟨u, rfl, (run_succ k hs).symm.trans h⟩
  | fault r => exact nomatch r
  | refused r =>
    have hs' : core.step s = .refused r := hs
    simp [Host.Core.run, hs'] at h

/-- A run with no reset accepts some first part of the words offered (R60). -/
theorem run_accepted {k : Nat} {s t : State} (hr : Turn.reset ∉ s.turns) (h : core.run k s = .next t) :
    ∃ ws, Accepted ws s t := by
  induction k generalizing s with
  | zero => cases h; exact ⟨[], .nil rfl (.refl _)⟩
  | succ k ih =>
    obtain ⟨u, hstep, hrun⟩ := run_succ_cases h
    obtain ⟨hr', vs, hvs⟩ := step_accepted hr hstep
    obtain ⟨ws, hws⟩ := ih hr' hrun
    exact ⟨vs ++ ws, hvs.append hws⟩

/-- Settles O21: by induction on the steps; what a word does is local to the block, so neither takes nor words held
back change it. -/
theorem flowControlNeverChangesTheStream : Obligations.FlowControlNeverChangesTheStream := by
  intro k s t hr h
  obtain ⟨ws, hoffered, u, hu, hsame⟩ := run_accepted hr h
  exact ⟨ws, u, hoffered, hu, hsame.withPortsOf_eq s, hsame.2⟩

end Sys2Proof.Machine
end

-- ==== The encoding: decoder, errors, mode table and assembler (30_encoding.md) ====
section
/-! The decoder against the opcode table (R72 to R75), the errors of a word (R74, R75, R77), and the words of the
pseudo-instructions (R79). -/

namespace Sys2Proof

/-! ## The rows of the opcode table -/

/-- The opcode of a command: OP of its row (R73). -/
def opcodeOf : Instr → BitVec 4
  | .start _ => 1
  | .sym _ => 2
  | .endFrame => 3
  | .pstart => 4
  | .pbyte _ => 5
  | .pend => 6

theorem matchOf_eq_ofFields (i : Instr) : matchOf i = ofFields (opcodeOf i) 0 0 := by
  cases i <;> dsimp only [matchOf, opcodeOf] <;> decide

/-- OP and RSV lie under the mask of every row (R73). -/
theorem maskOf_eq_ofFields (i : Instr) : maskOf i = ofFields 15 15 (fieldOpd (maskOf i)) := by
  cases i <;> dsimp only [maskOf] <;> decide

/-- The mask of a row and `rsvmask` of R76 name the same bits of OPD. -/
theorem reservedMask_opcodeOf (i : Instr) : reservedMask (opcodeOf i) = some (fieldOpd (maskOf i)) := by
  cases i <;> dsimp only [maskOf, opcodeOf] <;> decide

/-- A command is selected by its own opcode only (R73). -/
theorem opcode_of_commandOf {op : BitVec 4} {d : Byte} {i : Instr} (h : commandOf op d = some i) :
    op = opcodeOf i := by
  rcases opcode_cases op with rfl | rfl | rfl | rfl | rfl | rfl | ⟨-, hnone⟩
  · cases h; rfl
  · cases h; rfl
  · cases h; rfl
  · cases h; rfl
  · cases h; rfl
  · cases h; rfl
  · simp [hnone] at h

/-- A word agrees with a row's match under its mask when it has the row's OP and its reserved bits are zero. -/
theorem and_maskOf_eq_matchOf_iff (w : Word) (i : Instr) : w &&& maskOf i = matchOf i ↔
    fieldOp w = opcodeOf i ∧ fieldRsv w = 0 ∧ fieldOpd w &&& fieldOpd (maskOf i) = 0 := by
  conv_lhs => rw [← ofFields_fields w, maskOf_eq_ofFields, matchOf_eq_ofFields, ofFields_and, ofFields_inj]
  rw [show (15 : BitVec 4) = BitVec.allOnes 4 from rfl, BitVec.and_allOnes, BitVec.and_allOnes]

/-- R73 for all rows at once: the command is the row's, with the operand that OPD holds. -/
theorem decode_ok_iff_mask_match (w : Word) (i : Instr) : decode w = .ok i ↔
    w &&& maskOf i = matchOf i ∧ commandOf (opcodeOf i) (fieldOpd w) = some i := by
  rw [and_maskOf_eq_matchOf_iff]
  conv_lhs => rw [← ofFields_fields w, decode_ok_iff]
  constructor
  · rintro ⟨hrsv, mask, hmask, hopd, hcmd⟩
    have hop := opcode_of_commandOf hcmd
    rw [hop] at hcmd hmask
    cases hmask.symm.trans (reservedMask_opcodeOf i)
    exact ⟨⟨hop, hrsv, hopd⟩, hcmd⟩
  · rintro ⟨⟨hop, hrsv, hopd⟩, hcmd⟩
    rw [hop]
    exact ⟨hrsv, _, reservedMask_opcodeOf i, hopd, hcmd⟩

namespace Machine

/-! ## Words that are no command -/

/-- An opcode has a row when it is 1 to 6 (R73, R75). -/
theorem opcodeLegal_iff (w : Word) : opcodeLegal w ↔ ∃ mask, reservedMask (fieldOp w) = some mask := by
  have hrow : ∀ op : BitVec 4, (1 ≤ op.toNat ∧ op.toNat ≤ 6) ↔ (reservedMask op).isSome := by decide
  exact (hrow (fieldOp w)).trans Option.isSome_iff_exists

/-- Masking OPD with the ones from bit `k` on gives zero when those `m` bits of the word are zero. -/
theorem fieldOpd_and_high_eq_zero_iff (w : Word) {k m : Nat} (hkm : k + m = 8) :
    fieldOpd w &&& BitVec.allOnes 8 <<< k = 0 ↔ w.extractLsb' k m = 0 := by
  have hopd : w.extractLsb' k m = (fieldOpd w).extractLsb' k m := (BitVec.extractLsb'_extractLsb'_of_le hkm.le).symm
  rw [hopd]
  generalize fieldOpd w = d
  have hlow : d.toNat / 2 ^ k * 2 ^ k < 256 := (Nat.div_mul_le_self _ _).trans_lt d.isLt
  have hhigh : d.toNat / 2 ^ k < 2 ^ m := Nat.div_lt_of_lt_mul (by rw [← Nat.pow_add, hkm]; exact d.isLt)
  rw [← BitVec.shiftLeft_ushiftRight, BitVec.toNat_eq, BitVec.toNat_eq]
  simp [Nat.shiftLeft_eq, Nat.shiftRight_eq_div_pow, Nat.mod_eq_of_lt hlow, Nat.mod_eq_of_lt hhigh]

/-- The reserved bits of R72, row by row, are RSV and the bits of OPD under `rsvmask` of R76. -/
theorem reservedBitSet_iff {w : Word} {mask : Byte} (h : reservedMask (fieldOp w) = some mask) :
    reservedBitSet w ↔ fieldRsv w ≠ 0 ∨ fieldOpd w &&& mask ≠ 0 := by
  have hFE := not_congr (fieldOpd_and_high_eq_zero_iff w (k := 1) (m := 7) rfl)
  have hFC := not_congr (fieldOpd_and_high_eq_zero_iff w (k := 2) (m := 6) rfl)
  have hFF := not_congr (fieldOpd_and_high_eq_zero_iff w (k := 0) (m := 8) rfl)
  refine or_congr Iff.rfl ?_
  change (fieldOp w = 1 ∧ _) ∨ (fieldOp w = 2 ∧ _) ∨ (fieldOp w = 3 ∧ _) ∨ (fieldOp w = 4 ∧ _)
    ∨ (fieldOp w = 6 ∧ _) ↔ _
  rcases opcode_cases (fieldOp w) with hop | hop | hop | hop | hop | hop | ⟨hnone, -⟩
  · rw [hop] at h ⊢; cases h; simpa using hFE.symm
  · rw [hop] at h ⊢; cases h; simpa using hFC.symm
  · rw [hop] at h ⊢; cases h; simpa using hFF.symm
  · rw [hop] at h ⊢; cases h; simpa using hFF.symm
  · rw [hop] at h ⊢; cases h; simp
  · rw [hop] at h ⊢; cases h; simpa using hFF.symm
  · simp [hnone] at h

/-- The decoder answers ILLEGAL_OPCODE by OP alone (R75). -/
theorem decode_eq_illegalOpcode_iff (w : Word) : decode w = .error .illegalOpcode ↔ ¬ opcodeLegal w := by
  conv_lhs => rw [← ofFields_fields w, decode_illegal_iff]
  rw [opcodeLegal_iff, Option.eq_none_iff_forall_ne_some, not_exists]

/-- The decoder answers RESERVED_BITS for a legal OP with a reserved bit set (R74). -/
theorem decode_eq_reservedBits_iff (w : Word) :
    decode w = .error .reservedBits ↔ opcodeLegal w ∧ reservedBitSet w := by
  conv_lhs => rw [← ofFields_fields w, decode_reserved_iff]
  rw [opcodeLegal_iff]
  constructor
  · rintro ⟨mask, hmask, hset⟩
    exact ⟨⟨mask, hmask⟩, (reservedBitSet_iff hmask).2 hset⟩
  · rintro ⟨⟨mask, hmask⟩, hset⟩
    exact ⟨mask, hmask, (reservedBitSet_iff hmask).1 hset⟩

/-- Settles O4: the rule for all rows at each of the six; the words left are those of the two decode errors. -/
theorem wordSelectsCommandByMaskAndMatch : Obligations.WordSelectsCommandByMaskAndMatch := by
  intro w
  have hrow := decode_ok_iff_mask_match w
  refine ⟨fun raw => (hrow _).trans ?_, fun x => (hrow _).trans ?_, (hrow _).trans (and_iff_left rfl),
    (hrow _).trans (and_iff_left rfl), fun b => (hrow _).trans ?_, (hrow _).trans (and_iff_left rfl),
    (decode_eq_illegalOpcode_iff w).2, fun hlegal hnone => ?_⟩
  · exact and_congr Iff.rfl (by simp [commandOf, opcodeOf, fieldOpd])
  · exact and_congr Iff.rfl (by simp [commandOf, opcodeOf, fieldOpd, BitVec.extractLsb'_extractLsb'_of_le])
  · exact and_congr Iff.rfl (by simp [commandOf, opcodeOf, fieldOpd])
  · cases hd : decode w with
    | ok i => exact absurd hd (hnone i)
    | error e =>
      cases e with
      | illegalOpcode => exact absurd hlegal ((decode_eq_illegalOpcode_iff w).1 hd)
      | reservedBits => exact ((decode_eq_reservedBits_iff w).1 hd).2

/-- Settles O5: the decoder answers ILLEGAL_OPCODE, and error entry changes the latch alone. -/
theorem illegalOpcodeRaisesItsError : Obligations.IllegalOpcodeRaisesItsError :=
  fun w _ he hop => stepWord_error he ((decode_eq_illegalOpcode_iff w).2 hop)

/-- Settles O6: the decoder answers RESERVED_BITS, and error entry changes the latch alone. -/
theorem reservedBitRaisesItsError : Obligations.ReservedBitRaisesItsError :=
  fun w _ he hop hset => stepWord_error he ((decode_eq_reservedBits_iff w).2 ⟨hop, hset⟩)

/-! ## The mode table -/

/-! No operation a command is made of touches the latch: only error entry sets it (R163). -/

@[simp] theorem lzwOutAll_err (bs : List Byte) (s : State) : (lzwOutAll bs s).err = s.err := by rw [lzwOutAll_eq]

@[simp] theorem packByte_err (b : Byte) (s : State) : (packByte b s).err = s.err := by rw [packByte_eq]

@[simp] theorem packEnd_err (s : State) : (packEnd s).err = s.err := by rw [packEnd_eq]

@[simp] theorem flushBits_err (s : State) : (flushBits s).err = s.err := by simp [flushBits_eq]

theorem miss_err (x : Sym) (s : State) : (miss x s).err = s.err := by
  by_cases hn : s.nextCode.toNat < 4096
  · simp [miss_room x s hn]
  · simp [miss_full x s hn]

theorem symEffect_err (x : Sym) (s : State) : (symEffect x s).err = s.err := by
  unfold symEffect
  split
  · rfl
  · split
    · rfl
    · exact miss_err x s

theorem endEffect_err (s : State) : (endEffect s).err = s.err := by
  unfold endEffect
  simp only [resetTable_err]
  split <;> split <;> simp

/-- A command past its checks leaves the latch as it was (R163). -/
theorem effectOf_err (i : Instr) (s : State) : (effectOf i s).err = s.err := by
  cases i with
  | start raw => simp [effectOf, startEffect_eq]
  | sym x => exact symEffect_err x s
  | endFrame => exact endEffect_err _
  | pstart => rfl
  | pbyte b => exact packByte_err b s
  | pend => exact packEnd_err _

/-- In a mode where it is not legal a command latches MODE_VIOLATION and does nothing else (R77, R163). -/
theorem exec_illegal {i : Instr} {s : State} (he : s.err = false) (hl : legalIn i s.mode = false) :
    exec i s = .next (latched .modeViolation (encode i) s) := by
  rw [exec_eq_checked]
  exact checked_illegal he hl

/-- In a mode where it is legal a command latches no error (R77). -/
theorem exec_legal {i : Instr} {s : State} (he : s.err = false) (hl : legalIn i s.mode = true) :
    ∃ t, exec i s = .next t ∧ t.err = false :=
  ⟨effectOf i s, by rw [exec_eq_checked]; exact checked_legal he hl, (effectOf_err i s).trans he⟩

/-- One row of the mode table (R77): what follows in the modes where it says "error", and where it says "legal". -/
theorem exec_of_tableRow {i : Instr} {s : State} {legal error : Prop} (he : s.err = false)
    (hlegal : legalIn i s.mode = true ↔ legal) (herror : error → ¬ legal) :
    (error → exec i s = .next (latched .modeViolation (encode i) s))
      ∧ (legal → ∃ t, exec i s = .next t ∧ t.err = false) :=
  ⟨fun h => exec_illegal he (Bool.eq_false_iff.2 fun hl => herror h (hlegal.1 hl)),
    fun h => exec_legal he (hlegal.2 h)⟩

/-- No mode is both outside and inside a compressor frame. -/
theorem not_packed_or_raw {m : Mode} (h : m = .idle ∨ m = .direct) : ¬ (m = .packed ∨ m = .raw) := by
  rcases h with rfl | rfl <;> simp

/-- Settles O7: each row of the table is its row of `legalIn`. -/
theorem modeTableDecidesLegality : Obligations.ModeTableDecidesLegality :=
  fun _ he => ⟨fun _ => exec_of_tableRow he beq_iff_eq id,
    fun _ => exec_of_tableRow he (by simp [legalIn]) not_packed_or_raw,
    exec_of_tableRow he (by simp [legalIn]) not_packed_or_raw,
    exec_of_tableRow he beq_iff_eq id,
    fun _ => exec_of_tableRow he beq_iff_eq id,
    exec_of_tableRow he beq_iff_eq id⟩

/-! ## The words of the pseudo-instructions -/

/-- A row's match lies under its mask. -/
theorem matchOf_and_maskOf (i : Instr) : matchOf i &&& maskOf i = matchOf i := by
  cases i <;> dsimp only [matchOf, maskOf] <;> decide

theorem encoding_statement (i : Instr) : Laws.Encoding.Statement i := by
  cases i with
  | start raw => exact Laws.Encoding.start raw
  | sym x => exact Laws.Encoding.sym x
  | endFrame => exact Laws.Encoding.endFrame
  | pstart => exact Laws.Encoding.pstart
  | pbyte b => exact Laws.Encoding.pbyte b
  | pend => exact Laws.Encoding.pend

/-- Match and operand have no bit in common, so a word is their sum (R72, R73). -/
theorem encode_eq_add (i : Instr) : encode i = matchOf i + operandBits i := by
  obtain ⟨-, -, hmask⟩ := encoding_statement i
  refine (BitVec.add_eq_or_of_and_eq_zero _ _ ?_).symm
  calc matchOf i &&& operandBits i
      = matchOf i &&& (operandBits i &&& maskOf i) := by
        rw [BitVec.and_comm (operandBits i), ← BitVec.and_assoc, matchOf_and_maskOf]
    _ = matchOf i &&& 0 := by rw [hmask]
    _ = 0 := BitVec.and_zero

theorem encode_sym_ofNat {n : Nat} (h : n ≤ 3) : encode (.sym (BitVec.ofNat 2 n)) = BitVec.ofNat 16 (0x2000 + n) := by
  have hop : operandBits (.sym (BitVec.ofNat 2 n)) = BitVec.ofNat 16 n :=
    BitVec.setWidth_ofNat_of_le_of_lt (by decide) (by omega)
  rw [encode_eq_add, hop, BitVec.ofNat_add]
  rfl

theorem encode_pbyte_ofNat {n : Nat} (h : n ≤ 255) :
    encode (.pbyte (BitVec.ofNat 8 n)) = BitVec.ofNat 16 (0x5000 + n) := by
  have hop : operandBits (.pbyte (BitVec.ofNat 8 n)) = BitVec.ofNat 16 n :=
    BitVec.setWidth_ofNat_of_le_of_lt (by decide) (by omega)
  rw [encode_eq_add, hop, BitVec.ofNat_add]
  rfl

/-- The words of FRAME and RAWFRAME, for symbols in range (R79). -/
theorem frameWords_ofNat (raw : Bool) {ns : List Nat} (h : ∀ n ∈ ns, n ≤ 3) :
    frameWords raw (ns.map (BitVec.ofNat 2))
      = encode (.start raw) :: ns.map (fun n => BitVec.ofNat 16 (0x2000 + n)) ++ [0x3000] := by
  have hwords : (ns.map (BitVec.ofNat 2)).map (fun x => encode (.sym x))
      = ns.map fun n => BitVec.ofNat 16 (0x2000 + n) := by
    rw [List.map_map]
    exact List.map_congr_left fun n hn => encode_sym_ofNat (h n hn)
  rw [frameWords, hwords]
  rfl

/-- The words of PBLOCK, for bytes in range (R79). -/
theorem packerWords_ofNat {ns : List Nat} (h : ∀ n ∈ ns, n ≤ 255) :
    packerWords (ns.map (BitVec.ofNat 8))
      = 0x4000 :: ns.map (fun n => BitVec.ofNat 16 (0x5000 + n)) ++ [0x6000] := by
  have hwords : (ns.map (BitVec.ofNat 8)).map (fun b => encode (.pbyte b))
      = ns.map fun n => BitVec.ofNat 16 (0x5000 + n) := by
    rw [List.map_map]
    exact List.map_congr_left fun n hn => encode_pbyte_ofNat (h n hn)
  rw [packerWords, hwords]
  rfl

/-- A line whose numbers fit their fields is assembled (R78). -/
theorem assembleLine_wellFormed {l : AsmLine} {ws : List Word} (h : l.wellFormed = true) (hw : wordsOfLine l = ws) :
    assembleLine l = some ws :=
  hw ▸ if_pos h

theorem all_lt_of_forall_le {ns : List Nat} {m : Nat} (h : ∀ n ∈ ns, n ≤ m) :
    (ns.all fun n => decide (n < m + 1)) = true :=
  List.all_eq_true.2 fun n hn => decide_eq_true (Nat.lt_succ_of_le (h n hn))

/-- Settles O49: a line in range is well-formed, and each number's word is its command's. -/
theorem pseudoInstructionsExpand : Obligations.PseudoInstructionsExpand :=
  fun _ => ⟨fun h => ⟨assembleLine_wellFormed (all_lt_of_forall_le h) (frameWords_ofNat false h),
      assembleLine_wellFormed (all_lt_of_forall_le h) (frameWords_ofNat true h)⟩,
    fun h => assembleLine_wellFormed (all_lt_of_forall_le h) (packerWords_ofNat h)⟩

end Machine
end Sys2Proof
end

-- ==== The compressor: code stream, table and commands (40_lzw.md) ====
section
/-! The compressor: the code stream (R105), the code table (R102, R103, R108), the three commands (R110 to R112), and the
simulation of `LZW(x)` (R113) by which a whole frame, and so a sequence of frames, outputs what the spec says. -/

namespace Sys2Proof.Machine

/-! ## The words of the commands -/

/-- OPD of a PBYTE word is its byte (R72). -/
theorem fieldOpd_encode_pbyte (b : Byte) : fieldOpd (encode (.pbyte b)) = b := by
  refine BitVec.eq_of_toNat_eq ?_
  rw [encode_eq_add]
  simp only [fieldOpd, matchOf, operandBits, BitVec.extractLsb'_toNat, BitVec.toNat_add, BitVec.toNat_setWidth,
    BitVec.reduceToNat, Nat.shiftRight_zero]
  omega

/-- The decoder gives back the command of every encoded word (R72, R73). -/
theorem decode_encode (i : Instr) : decode (encode i) = .ok i := by
  obtain ⟨-, hrow, -⟩ := encoding_statement i
  refine (decode_ok_iff_mask_match _ i).2 ⟨hrow, ?_⟩
  cases i with
  | start raw => cases raw <;> rfl
  | sym x => revert x; decide
  | endFrame => rfl
  | pstart => rfl
  | pbyte b => rw [fieldOpd_encode_pbyte]; rfl
  | pend => rfl

theorem exec_effectOf {i : Instr} {s : State} (he : s.err = false) (hl : legalIn i s.mode = true) :
    exec i s = .next (effectOf i s) := by
  rw [exec_eq_checked, checked_legal he hl]

/-- The word of a command that is legal has the command's effect (R76). -/
theorem stepWord_encode {i : Instr} {s : State} (he : s.err = false) (hl : legalIn i s.mode = true) :
    stepWord (encode i) s = .next (effectOf i s) := by
  rw [stepWord_ok (decode_encode i), exec_effectOf he hl]

/-- A word with a nonzero bit below OP has one in RSV or one in OPD (R70). -/
theorem rsv_or_opd_ne_zero {w : Word} (h : w.extractLsb' 0 12 ≠ 0) :
    w.extractLsb' 8 4 ≠ 0 ∨ w.extractLsb' 0 8 ≠ 0 := by
  refine not_and_or.1 fun ⟨hrsv, hopd⟩ => h ?_
  have hsplit : w.extractLsb' 0 12 = w.extractLsb' 8 4 ++ w.extractLsb' 0 8 :=
    (BitVec.extractLsb'_append_extractLsb'_eq_extractLsb' (start₁ := 0) (len₁ := 8) (len₂ := 4) rfl).symm
  rw [hsplit, hrsv, hopd]
  rfl

theorem legalIn_sym {m : Mode} (x : Sym) (hm : m = .packed ∨ m = .raw) : legalIn (.sym x) m = true := by
  simpa [legalIn] using hm

theorem legalIn_endFrame {m : Mode} (hm : m = .packed ∨ m = .raw) : legalIn .endFrame m = true := by
  simpa [legalIn] using hm

theorem encode_start (raw : Bool) : encode (.start raw) = if raw then 0x1001 else 0x1000 := by
  cases raw <;> rfl

/-- Settles O25: START emits CLEAR into an empty accumulator, 3 bits that drain no byte; its errors are the mode's and
the decoder's. -/
theorem startOpensACompressorFrame : Obligations.StartOpensACompressorFrame := by
  refine ⟨fun raw => encode_start raw ▸ decode_encode _,
    fun s he => ⟨fun raw hm => ?_, fun raw hm => ?_, fun w hop hset => ?_⟩⟩
  · rw [exec_effectOf (i := .start raw) he (beq_iff_eq.2 hm), effectOf, startEffect_eq]
  · rw [exec_illegal (i := .start raw) he (beq_eq_false_iff_ne.2 hm), encode_start]
  · have hset : reservedBitSet w := hset.imp id fun hopd => .inl ⟨hop, hopd⟩
    exact reservedBitRaisesItsError w s he (by rw [opcodeLegal, hop]; decide) hset

/-! ## The code stream -/

/-- Between `s` and `t` the bits `bits` join the code stream, of which the bytes `bs` leave the accumulator (R105). -/
def Drains (bs : List Byte) (bits : List Bool) (s t : State) : Prop :=
  bytesBits bs ++ t.accBits = s.accBits ++ bits ∧ t.bitBuf.toNat < 2 ^ t.bitCnt.toNat

theorem Drains.append {as bs : List Byte} {xs ys : List Bool} {s t u : State} (h : Drains as xs s t)
    (h' : Drains bs ys t u) : Drains (as ++ bs) (xs ++ ys) s u := by
  obtain ⟨hbits, -⟩ := h
  obtain ⟨hbits', hfew⟩ := h'
  exact ⟨by rw [bytesBits_append, List.append_assoc, hbits', ← List.append_assoc, hbits, List.append_assoc], hfew⟩

/-- At most the seven bits held and the new ones leave in bytes. -/
theorem Drains.length_le {bs : List Byte} {bits : List Bool} {s t : State} (h : Drains bs bits s t) :
    8 * bs.length ≤ 7 + bits.length := by
  have hlen := congrArg List.length h.1
  have hheld := s.bitCnt.isLt
  simp [State.accBits] at hlen
  omega

theorem emitCode_drains {c : Code} {s : State} (hb : s.bitBuf.toNat < 2 ^ s.bitCnt.toNat)
    (hc : c.toNat < 2 ^ s.width.toNat) :
    Drains (emittedBytes c s) (natBits s.width.toNat c.toNat) s (emitCode c s) :=
  let ⟨hbits, hfew, _⟩ := emitCode_bits hb hc
  ⟨hbits, hfew⟩

/-- Settles O32: the bytes that leave are the low bytes of the bits held joined with the code. -/
theorem emitCodeAppendsTheCodeBits : Obligations.EmitCodeAppendsTheCodeBits := fun s c hb hc =>
  let ⟨hbits, hfew⟩ := emitCode_drains hb hc
  ⟨emittedBytes c s, hbits, hfew, emitCode_eq c s⟩

theorem Inv_clear_fits {s : State} (h : s.Inv) : Config.clear.toNat < 2 ^ s.width.toNat :=
  Nat.lt_of_lt_of_le (by decide) (Inv_width_eight h)

theorem Inv_eoi_fits {s : State} (h : s.Inv) : Config.eoi.toNat < 2 ^ s.width.toNat :=
  Nat.lt_of_lt_of_le (by decide) (Inv_width_eight h)

/-- Settles O34: the width holds `nextCode`, above every code of the table, and is 3 at least. -/
theorem codesFitTheWidth : Obligations.CodesFitTheWidth := fun _ h =>
  let ⟨_, h12, _⟩ := h.widthLeast
  ⟨Inv_prefix_fits h, Inv_clear_fits h, Inv_eoi_fits h, h12⟩

/-! ## The code table -/

theorem lookup_eq_some_iff {n : Nat} {t : List Entry} (h : TableInv n t) (p : Code) (x : Sym) (c : Code) :
    lookup p x t = some c ↔ ⟨p, x, c⟩ ∈ t := by
  refine ⟨lookup_mem, fun hc => ?_⟩
  cases hl : lookup p x t with
  | none => exact absurd ⟨rfl, rfl⟩ (lookup_none.1 hl _ hc)
  | some d => cases TableInv_key_inj h hc (lookup_mem hl) rfl rfl; rfl

theorem lookup_insertEntry (p q : Code) (x y : Sym) (c : Code) (t : List Entry) :
    lookup q y (insertEntry p x c t) = if p = q ∧ x = y then some c else lookup q y t := rfl

/-- Settles O33: no key occurs twice, so the first entry with a key is the only one. -/
theorem lookupAndInsertAreAPartialMap : Obligations.LookupAndInsertAreAPartialMap := by
  refine fun n t h => ⟨lookup_eq_some_iff h, fun p x c _ => ⟨?_, fun q y hne => ?_⟩⟩
  · rw [lookup_insertEntry, if_pos ⟨rfl, rfl⟩]
  · rw [lookup_insertEntry, if_neg fun ⟨hp, hx⟩ => hne ⟨hp.symm, hx.symm⟩]

/-! ## SYM -/

theorem symEffect_first {s : State} (x : Sym) (hp : s.havePrefix = false) :
    symEffect x s = { s with prefixCode := literalCode x, havePrefix := true } := by
  rw [symEffect, if_pos hp]

theorem symEffect_hit {s : State} {x : Sym} {c : Code} (hp : s.havePrefix = true)
    (hl : lookup s.prefixCode x s.table = some c) : symEffect x s = { s with prefixCode := c } := by
  simp [symEffect, hp, hl]

theorem symEffect_miss {s : State} {x : Sym} (hp : s.havePrefix = true)
    (hl : lookup s.prefixCode x s.table = none) : symEffect x s = miss x s := by
  simp [symEffect, hp, hl]

/-- A miss with room in the table: the code of the longest match joins the stream and the pair is learnt (R108). -/
theorem miss_learns {s : State} (x : Sym) (h : s.Inv) (hp : s.havePrefix = true) (hn : s.nextCode.toNat < 4096) :
    ∃ bs, Drains bs (natBits s.width.toNat s.prefixCode.toNat) s (miss x s)
      ∧ miss x s = { lzwOutAll bs s with
          table := ⟨s.prefixCode, x, s.nextCode.setWidth 12⟩ :: s.table
          nextCode := s.nextCode + 1
          width := if 2 ^ s.width.toNat < s.nextCode.toNat + 1 ∧ s.width.toNat < 12 then s.width + 1 else s.width
          prefixCode := x.setWidth 12
          bitBuf := (miss x s).bitBuf
          bitCnt := (miss x s).bitCnt } := by
  refine ⟨emittedBytes s.prefixCode s, ?_, ?_⟩
  · rw [miss_room x s hn]
    exact emitCode_drains h.bitsHeld (Inv_prefix_fits h hp)
  · rw [miss_room x s hn]
    conv_lhs => rw [emitCode_eq]
    simp [BitVec.ofNat_add]

/-- On a full table the width is 12 (R32). -/
theorem Inv_width_full {s : State} (h : s.Inv) (hn : s.nextCode.toNat = 4096) : s.width.toNat = 12 :=
  Inv_width_eq_succ h (k := 11) (by decide) (by omega) (by omega)

/-- A miss on the full table: the code of the longest match and CLEAR join the stream, and the table is reset (R108). -/
theorem miss_resets {s : State} (x : Sym) (h : s.Inv) (hp : s.havePrefix = true) (hn : s.nextCode.toNat = 4096) :
    ∃ bs, Drains bs (natBits 12 s.prefixCode.toNat ++ natBits 12 4) s (miss x s)
      ∧ miss x s = { lzwOutAll bs s with
          table := [], nextCode := 6, width := 3, prefixCode := x.setWidth 12
          bitBuf := (miss x s).bitBuf
          bitCnt := (miss x s).bitCnt } := by
  have hw := Inv_width_full h hn
  have hmatch := emitCode_drains h.bitsHeld (Inv_prefix_fits h hp)
  have hclear := emitCode_drains hmatch.2 (c := Config.clear) (by rw [emitCode_width]; exact Inv_clear_fits h)
  rw [emitCode_width, hw] at hclear
  rw [hw] at hmatch
  rw [miss_full x s (by omega)]
  refine ⟨_, hmatch.append hclear, ?_⟩
  conv_lhs => rw [emitCode_emitCode]

/-- Settles O27: by whether the table has room; the bytes drained are those of the one or two codes emitted. -/
theorem missLearnsOrResets : Obligations.MissLearnsOrResets := by
  intro s x h he hm hp hl
  have hexec : exec (.sym x) s = .next (miss x s) := by
    rw [exec_effectOf he (legalIn_sym x hm), effectOf, symEffect_miss hp hl]
  obtain ⟨-, h12, -⟩ := h.widthLeast
  obtain ⟨-, hmax⟩ := h.nextCodeRange
  by_cases hn : s.nextCode.toNat < 4096
  · obtain ⟨bs, hd, hform⟩ := miss_learns x h hp hn
    have hlen := hd.length_le
    rw [length_natBits] at hlen
    exact ⟨miss x s, bs, hexec, by omega, hd.2, fun _ => ⟨hd.1, hform⟩, fun hfull => by simp [hfull] at hn⟩
  · obtain ⟨bs, hd, hform⟩ := miss_resets x h hp (by omega)
    have hlen := hd.length_le
    simp only [List.length_append, length_natBits] at hlen
    exact ⟨miss x s, bs, hexec, by omega, hd.2, fun hroom => absurd hroom hn,
      fun _ => ⟨by rw [List.append_assoc]; exact hd.1, hform⟩⟩

/-! ## END -/

/-- END with its mark: the bytes of the last codes go out, and the last one is marked (R112, R58). -/
theorem withLastMark_endEffect {s : State} (h : s.Inv) (hm : s.mode = .packed ∨ s.mode = .raw) : ∃ bs pad,
    bytesBits bs = s.accBits ++ (if s.havePrefix then natBits s.width.toNat s.prefixCode.toNat else [])
        ++ natBits s.width.toNat 5 ++ List.replicate pad false
      ∧ pad < 8 ∧ 1 ≤ bs.length ∧ bs.length ≤ 4
      ∧ withLastMark endEffect s = { s with
          mode := .idle, table := [], nextCode := 6, width := 3, prefixCode := 0, havePrefix := false
          bitBuf := 0, bitCnt := 0, pkBuf := []
          outQ := s.outQ ++ asFrameOutput (if s.mode = .raw then bs else pack (s.pkBuf ++ bs)) } := by
  have hdrained : ({ s with outQ := [] } : State).Inv := { h with }
  obtain ⟨bs, pad, hbits, hpad, hpos, hfour, heq⟩ := endEffect_eq hdrained hm
  exact ⟨bs, pad, hbits, hpad, hpos, hfour, by rw [withLastMark, heq]; rfl⟩

/-- Settles O28: END's effect with its mark; its errors are the mode's and the decoder's. -/
theorem endClosesTheCompressorFrame : Obligations.EndClosesTheCompressorFrame := by
  refine ⟨decode_encode .endFrame, fun s he => ⟨fun h hm => ?_, fun hm => ?_, fun w hop hset => ?_⟩⟩
  · obtain ⟨bs, pad, hbits, hpad, hpos, hfour, heq⟩ := withLastMark_endEffect h hm
    exact ⟨_, bs, pad, exec_effectOf he (legalIn_endFrame hm), hbits, hpad, hpos, hfour, heq⟩
  · exact exec_illegal he (by rcases hm with hm | hm <;> rw [hm] <;> rfl)
  · have hset : reservedBitSet w :=
      (rsv_or_opd_ne_zero hset).imp id fun hopd => .inr (.inr (.inl ⟨hop, hopd⟩))
    exact reservedBitRaisesItsError w s he (by rw [opcodeLegal, hop]; decide) hset

end Sys2Proof.Machine
end

-- ==== Whole frames: the simulation of LZW(x) and Pack(y) (40_lzw.md) ====
section
/-! Whole frames: the machine simulates `LZW(x)` symbol by symbol (R113) and `Pack(y)` byte by byte (R146), so each frame
outputs what the spec says and leaves the IDLE state it began in. -/

namespace Sys2Proof.Machine

/-! ## What a compressor command routes and what it computes -/

/-- `s` with the compressor's registers of `c`. -/
def State.withCompressorOf (s c : State) : State :=
  { s with
    table := c.table, nextCode := c.nextCode, width := c.width, prefixCode := c.prefixCode
    havePrefix := c.havePrefix, bitBuf := c.bitBuf, bitCnt := c.bitCnt }

/-- `t` is `s` after routing the compressor bytes `bs`, but for the compressor's own registers (R106). -/
def Routed (bs : List Byte) (s t : State) : Prop := t = (lzwOutAll bs s).withCompressorOf t

theorem Routed.refl (s : State) : Routed [] s s := rfl

/-- Routing neither sees nor changes the compressor's registers. -/
theorem lzwOutAll_withCompressorOf (bs : List Byte) (s c : State) :
    lzwOutAll bs (s.withCompressorOf c) = (lzwOutAll bs s).withCompressorOf c := by
  simp [lzwOutAll_eq, State.withCompressorOf]

theorem Routed.append {as bs : List Byte} {s t u : State} (h : Routed as s t) (h' : Routed bs t u) :
    Routed (as ++ bs) s u := by
  rw [Routed, h, lzwOutAll_withCompressorOf] at h'
  rw [Routed, lzwOutAll_append]
  exact h'

section
variable {bs : List Byte} {s t : State} (h : Routed bs s t)
include h

theorem Routed.mode : t.mode = s.mode := by rw [h, lzwOutAll_eq]; rfl

theorem Routed.err : t.err = s.err := by rw [h, lzwOutAll_eq]; rfl

theorem Routed.cause : t.cause = s.cause := by rw [h, lzwOutAll_eq]; rfl

theorem Routed.errcmd : t.errcmd = s.errcmd := by rw [h, lzwOutAll_eq]; rfl

theorem Routed.pkBuf : t.pkBuf = (delivered s.mode s.pkBuf bs).2 := by rw [h, lzwOutAll_eq]; rfl

end

/-- Inside a compressor frame the invariants are kept when the compressor keeps its own (R32 to R35). -/
theorem Routed.inv {bs : List Byte} {s t : State} (hr : Routed bs s t) (h : s.Inv)
    (hm : s.mode = .packed ∨ s.mode = .raw)
    (hnext : 6 ≤ t.nextCode.toNat ∧ t.nextCode.toNat ≤ 4096)
    (hwidth : 3 ≤ t.width.toNat ∧ t.width.toNat ≤ 12 ∧ t.nextCode.toNat ≤ 2 ^ t.width.toNat
      ∧ (t.width.toNat = 3 ∨ 2 ^ (t.width.toNat - 1) < t.nextCode.toNat))
    (htable : TableInv t.nextCode.toNat t.table) (hp : t.havePrefix = true)
    (hknown : t.prefixCode.toNat < 4 ∨ (6 ≤ t.prefixCode.toNat ∧ t.prefixCode.toNat < t.nextCode.toNat))
    (hbits : t.bitBuf.toNat < 2 ^ t.bitCnt.toNat) : t.Inv where
  compressorIdle hi := absurd hm (not_packed_or_raw (hr.mode ▸ hi))
  packerEmpty hi := by
    have hraw : s.mode = .raw := by
      rcases hm with hm | hm
      · simp [hr.mode, hm] at hi
      · exact hm
    rw [hr.pkBuf, hraw]
    exact h.packerEmpty (.inr hraw)
  chunkShort := by
    rw [State.pkCnt, hr.pkBuf]
    exact delivered_length bs h.chunkShort
  nextCodeRange := hnext
  widthLeast := hwidth
  tableCodes := htable
  prefixKnown _ := hknown
  prefixZero hno := absurd (hp.symm.trans hno) (by decide)
  bitsHeld := hbits
  latchSet he := by
    rw [hr.cause]
    exact h.latchSet (hr.err ▸ he)
  latchClear he := by
    rw [hr.cause, hr.errcmd]
    exact h.latchClear (hr.err ▸ he)

/-! ## The coder of R113 -/

/-- The variables of R113 that an open frame stands for when the bytes `bs` have left it. -/
def State.coder (s : State) (bs : List Byte) : Coder :=
  ⟨toDict s.table, s.nextCode.toNat, s.width.toNat, bytesBits bs ++ s.accBits⟩

theorem coderStep_hit {k : Coder} {p x c : Nat} (h : k.dict.lookup (p, x) = some c) : coderStep (k, p) x = (k, c) := by
  simp [coderStep, h]

theorem coderStep_learns {k : Coder} {p x : Nat} (h : k.dict.lookup (p, x) = none) (hn : k.nextCode < 4096) :
    coderStep (k, p) x = (⟨((p, x), k.nextCode) :: k.dict, k.nextCode + 1,
      if 2 ^ k.width < k.nextCode + 1 ∧ k.width < 12 then k.width + 1 else k.width,
      k.acc ++ natBits k.width p⟩, x) := by
  simp [coderStep, h, coderEmit, hn]

theorem coderStep_resets {k : Coder} {p x : Nat} (h : k.dict.lookup (p, x) = none) (hn : ¬ k.nextCode < 4096) :
    coderStep (k, p) x = (⟨[], 6, 3, k.acc ++ (natBits k.width p ++ natBits k.width 4)⟩, x) := by
  simp [coderStep, h, coderEmit, hn, coderFresh]

/-- Bits that drain join the coder's string. -/
theorem Drains.coder {bs : List Byte} {bits : List Bool} {s t : State} (h : Drains bs bits s t) (as : List Byte) :
    t.coder (as ++ bs) = ⟨toDict t.table, t.nextCode.toNat, t.width.toNat, (s.coder as).acc ++ bits⟩ := by
  rw [State.coder, bytesBits_append, List.append_assoc, h.1, ← List.append_assoc]
  rfl

theorem toNat_literalCode (x : Sym) : (literalCode x).toNat = x.toNat := BitVec.toNat_setWidth_of_le (by decide)

/-- After a miss the longest match is the symbol alone (R108). -/
theorem miss_prefixCode (x : Sym) (s : State) : (miss x s).prefixCode.toNat = x.toNat := toNat_literalCode x

theorem miss_havePrefix (x : Sym) (s : State) : (miss x s).havePrefix = s.havePrefix := by
  by_cases hn : s.nextCode.toNat < 4096
  · rw [miss_room x s hn, emitCode_havePrefix]
  · rw [miss_full x s hn, emitCode_havePrefix, emitCode_havePrefix]

/-- On the symbols `xs` the machine goes from `s` to `t` as R113's loop does, and routes the bytes `bs`. -/
structure Simulates (xs : List Sym) (bs : List Byte) (s t : State) : Prop where
  routed : Routed bs s t
  inv : t.Inv
  hasMatch : t.havePrefix = true
  coder : ∀ as, (xs.map BitVec.toNat).foldl coderStep (s.coder as, s.prefixCode.toNat)
    = (t.coder (as ++ bs), t.prefixCode.toNat)

theorem Simulates.refl {s : State} (h : s.Inv) (hp : s.havePrefix = true) : Simulates [] [] s s :=
  ⟨.refl s, h, hp, fun as => by rw [List.append_nil]; rfl⟩

theorem Simulates.cons {x : Sym} {xs : List Sym} {as bs : List Byte} {s t u : State} (h : Simulates [x] as s t)
    (h' : Simulates xs bs t u) : Simulates (x :: xs) (as ++ bs) s u where
  routed := h.routed.append h'.routed
  inv := h'.inv
  hasMatch := h'.hasMatch
  coder cs := by
    have hx := h.coder cs
    simp only [List.map_cons, List.map_nil, List.foldl_cons, List.foldl_nil] at hx
    rw [List.map_cons, List.foldl_cons, hx, h'.coder, List.append_assoc]

section
variable {s : State} {x : Sym} (h : s.Inv) (hm : s.mode = .packed ∨ s.mode = .raw) (hp : s.havePrefix = true)
include h hm hp

/-- A hit: the string read so far gets longer, on both sides (R108). -/
theorem simulates_hit {c : Code} (hl : lookup s.prefixCode x s.table = some c) :
    Simulates [x] [] s (symEffect x s) := by
  rw [symEffect_hit hp hl]
  have hcode := table_code_lt h.tableCodes (lookup_mem hl)
  have hr : Routed [] s { s with prefixCode := c } := rfl
  refine ⟨hr, hr.inv h hm h.nextCodeRange h.widthLeast h.tableCodes hp (.inr hcode) h.bitsHeld, hp, fun as => ?_⟩
  have hdict : (toDict s.table).lookup (s.prefixCode.toNat, x.toNat) = some c.toNat := by rw [dict_lookup, hl]; rfl
  exact (coderStep_hit hdict).trans (by rw [List.append_nil]; rfl)

/-- A miss with room in the table: both sides learn the pair (R108, R109). -/
theorem simulates_learns (hl : lookup s.prefixCode x s.table = none) (hn : s.nextCode.toNat < 4096) :
    ∃ bs, Simulates [x] bs s (symEffect x s) := by
  rw [symEffect_miss hp hl]
  obtain ⟨bs, hd, hform⟩ := miss_learns x h hp hn
  have hcode := miss_prefixCode x s
  have hp' := (miss_havePrefix x s).trans hp
  generalize miss x s = t at *
  obtain ⟨h6, -⟩ := h.nextCodeRange
  obtain ⟨h3, h12, hwidth⟩ := h.widthLeast
  have htable : t.table = ⟨s.prefixCode, x, BitVec.ofNat 12 s.nextCode.toNat⟩ :: s.table := by
    rw [hform, BitVec.ofNat_toNat]
  have hnext : t.nextCode.toNat = s.nextCode.toNat + 1 := by
    rw [hform]
    bv_omega
  have hw : t.width.toNat =
      if 2 ^ s.width.toNat < s.nextCode.toNat + 1 ∧ s.width.toNat < 12 then s.width.toNat + 1 else s.width.toNat := by
    have hsucc : s.width.toNat < 12 → (s.width + 1).toNat = s.width.toNat + 1 := fun _ => by bv_omega
    rw [hform]
    split_ifs with hgrows
    · exact hsucc hgrows.2
    · rfl
  have hr : Routed bs s t := by rw [Routed, hform]; rfl
  refine ⟨bs, hr, hr.inv h hm (by omega) ?_ ?_ hp' (.inl (hcode ▸ x.isLt)) hd.2, hp', fun as => ?_⟩
  · rw [hnext, hw]
    exact width_step h6 ⟨h3, h12, hwidth⟩ hn
  · rw [hnext, htable]
    exact table_step h.tableCodes h6 hn (h.prefixKnown hp) hl
  · have hdict : (toDict s.table).lookup (s.prefixCode.toNat, x.toNat) = none := by rw [dict_lookup, hl]; rfl
    refine (coderStep_learns hdict hn).trans ?_
    rw [hd.coder, hcode, hw, hnext, htable]
    simp [State.coder, toDict, Nat.mod_eq_of_lt hn]

/-- A miss on the full table: both sides start a new one (R108). -/
theorem simulates_resets (hl : lookup s.prefixCode x s.table = none) (hn : s.nextCode.toNat = 4096) :
    ∃ bs, Simulates [x] bs s (symEffect x s) := by
  rw [symEffect_miss hp hl]
  obtain ⟨bs, hd, hform⟩ := miss_resets x h hp hn
  have hcode := miss_prefixCode x s
  have hp' := (miss_havePrefix x s).trans hp
  generalize miss x s = t at *
  have htable : t.table = [] := by rw [hform]
  have hnext : t.nextCode = 6 := by rw [hform]
  have hw : t.width = 3 := by rw [hform]
  have hr : Routed bs s t := by rw [Routed, hform]; rfl
  refine ⟨bs, hr, hr.inv h hm ?_ ?_ ?_ hp' (.inl (hcode ▸ x.isLt)) hd.2, hp', fun as => ?_⟩
  · rw [hnext]; decide
  · rw [hnext, hw]; decide
  · rw [hnext, htable]; decide
  · have hdict : (toDict s.table).lookup (s.prefixCode.toNat, x.toNat) = none := by rw [dict_lookup, hl]; rfl
    have hfull : ¬ (s.coder as).nextCode < 4096 := hn.ge.not_gt
    have hwidth : (s.coder as).width = 12 := Inv_width_full h hn
    rw [List.map_singleton, List.foldl_cons, List.foldl_nil, coderStep_resets hdict hfull, hwidth,
      hd.coder, hcode, hw, hnext, htable]
    rfl

/-- SYM is one turn of R113's loop. -/
theorem simulates_symEffect (x : Sym) : ∃ bs, Simulates [x] bs s (symEffect x s) := by
  obtain ⟨-, hmax⟩ := h.nextCodeRange
  cases hl : lookup s.prefixCode x s.table with
  | some c => exact ⟨[], simulates_hit h hm hp hl⟩
  | none =>
    by_cases hn : s.nextCode.toNat < 4096
    · exact simulates_learns h hm hp hl hn
    · exact simulates_resets h hm hp hl (by omega)

end

/-- A sequence of SYMs is R113's loop. -/
theorem runWords_syms (xs : List Sym) {s : State} (h : s.Inv) (he : s.err = false)
    (hm : s.mode = .packed ∨ s.mode = .raw) (hp : s.havePrefix = true) :
    ∃ bs t, runWords (xs.map fun x => encode (.sym x)) s = .next t ∧ Simulates xs bs s t := by
  induction xs generalizing s with
  | nil => exact ⟨[], s, rfl, .refl h hp⟩
  | cons x xs ih =>
    obtain ⟨as, hx⟩ := simulates_symEffect h hm hp x
    have hr := hx.routed
    obtain ⟨bs, t, hrun, hxs⟩ := ih hx.inv (hr.err.trans he) (hr.mode ▸ hm) hx.hasMatch
    exact ⟨as ++ bs, t, (runWords_cons (stepWord_encode he (legalIn_sym x hm))).trans hrun, hx.cons hxs⟩

/-! ## A compressor frame -/

theorem asFrameOutput_append (as : List Byte) {bs : List Byte} (h : bs ≠ []) :
    asFrameOutput (as ++ bs) = unmarked as ++ asFrameOutput bs := by
  have hne : unmarked bs ≠ [] := fun hnil => h (List.map_eq_nil_iff.1 hnil)
  exact (congrArg markLast (unmarked_append as bs)).trans (markLast_append_list _ _ hne)

/-- The last bytes of a frame behind those routed before are the whole frame's output (R106, R146). -/
theorem delivered_asFrameOutput {m : Mode} (as : List Byte) {bs : List Byte} (hm : m = .packed ∨ m = .raw)
    (h : bs ≠ []) :
    unmarked (delivered m [] as).1 ++ asFrameOutput (if m = .raw then bs else pack ((delivered m [] as).2 ++ bs))
      = asFrameOutput (if m = .raw then as ++ bs else pack (as ++ bs)) := by
  rcases hm with rfl | rfl
  · have hshort : (packAll [] as).2.length ≤ 254 := packAll_length as (by decide)
    have hpack : pack (as ++ bs) = (packAll [] as).1 ++ pack ((packAll [] as).2 ++ bs) := by
      rw [← packAll_pack bs hshort, ← List.append_assoc, ← List.nil_append (as ++ bs),
        ← packAll_pack (as ++ bs) (by decide), packAll_append]
    exact (congrArg asFrameOutput hpack).trans (asFrameOutput_append _ (pack_ne_nil _)) |>.symm
  · exact (asFrameOutput_append as h).symm

/-- R113's coder of an open frame when its final code has been emitted, but for EOI. -/
def State.finalCoder (s : State) (bs : List Byte) : Coder :=
  if s.havePrefix then coderEmit s.prefixCode.toNat (s.coder bs) else s.coder bs

/-- The bits of the bytes that END drains complete the coder's string (R107, R112). -/
theorem bitsToBytes_finalCoder {as bs : List Byte} {pad : Nat} {s : State} (hpad : pad < 8)
    (hbits : bytesBits bs = s.accBits ++ (if s.havePrefix then natBits s.width.toNat s.prefixCode.toNat else [])
      ++ natBits s.width.toNat 5 ++ List.replicate pad false) :
    bitsToBytes (coderEmit 5 (s.finalCoder as)).acc = as ++ bs := by
  refine bitsToBytes_pad _ _ pad hpad ?_
  rw [bytesBits_append, hbits]
  cases hp : s.havePrefix <;> simp [State.finalCoder, hp, coderEmit, State.coder]

/-- END closes the frame opened in `s₀`, whatever it has output until then (R112, R113). -/
theorem stepWord_end_of_routed {as : List Byte} {s₀ s : State} (hr : Routed as s₀ s) (h : s.Inv)
    (he : s₀.err = false) (hm : s₀.mode = .packed ∨ s₀.mode = .raw) (hempty : s₀.pkBuf = []) :
    stepWord (encode .endFrame) s = .next { s₀ with
      mode := .idle, table := [], nextCode := 6, width := 3, prefixCode := 0, havePrefix := false
      bitBuf := 0, bitCnt := 0, pkBuf := []
      outQ := s₀.outQ ++ asFrameOutput (if s₀.mode = .raw then bitsToBytes (coderEmit 5 (s.finalCoder as)).acc
        else pack (bitsToBytes (coderEmit 5 (s.finalCoder as)).acc)) } := by
  have hms : s.mode = .packed ∨ s.mode = .raw := hr.mode ▸ hm
  obtain ⟨bs, pad, hbits, hpad, hpos, -, heq⟩ := withLastMark_endEffect h hms
  rw [stepWord_encode (hr.err.trans he) (legalIn_endFrame hms), effectOf, heq, bitsToBytes_finalCoder hpad hbits,
    ← delivered_asFrameOutput as hm (List.ne_nil_of_length_pos hpos), hr.mode, hr.pkBuf, hempty]
  rw [Routed, lzwOutAll_eq, hempty] at hr
  rw [hr]
  simp only [State.withCompressorOf, List.append_assoc]

/-- From IDLE, where the other registers have their first values already, START sets the mode and holds CLEAR
(R31, R110). -/
theorem startEffect_idle (raw : Bool) {s : State} (h : s.Inv) (hm : s.mode = .idle) :
    startEffect raw s = { s with mode := if raw then .raw else .packed, bitBuf := 4, bitCnt := 3 } := by
  obtain ⟨htable, hnext, hwidth, hcode, hp, -, -⟩ := h.compressorIdle (.inl hm)
  rw [startEffect_eq, ← htable, ← hnext, ← hwidth, ← hcode, ← hp, ← h.packerEmpty (.inl hm)]

theorem startEffect_inv (raw : Bool) {s : State} (h : s.Inv) (hm : s.mode = .idle) : (startEffect raw s).Inv := by
  rw [startEffect_idle raw h hm]
  have hclear : (4 : Byte).toNat < 2 ^ (3 : BitVec 3).toNat := by decide
  exact { h with
    compressorIdle := by cases raw <;> simp
    packerEmpty := fun _ => h.packerEmpty (.inl hm)
    bitsHeld := hclear }

theorem startEffect_mode (raw : Bool) (s : State) : (startEffect raw s).mode = if raw then .raw else .packed := by
  rw [startEffect_eq]

theorem startEffect_open (raw : Bool) (s : State) :
    (startEffect raw s).mode = .packed ∨ (startEffect raw s).mode = .raw := by
  rw [startEffect_mode]
  cases raw <;> simp

/-- START leaves the coder of R113 with CLEAR emitted (R110). -/
theorem startEffect_coder (raw : Bool) (s : State) : (startEffect raw s).coder [] = coderEmit 4 coderFresh := by
  rw [startEffect_eq]
  rfl

/-- The SYMs of a frame: from START on the machine routes some bytes, and stands where R113 stands (R113). -/
theorem runWords_frameSyms (xs : List Sym) {s : State} (h : s.Inv) (he : s.err = false)
    (hm : s.mode = .packed ∨ s.mode = .raw) (hp : s.havePrefix = false) (hfresh : s.coder [] = coderEmit 4 coderFresh) :
    ∃ bs t, runWords (xs.map fun x => encode (.sym x)) s = .next t ∧ Routed bs s t ∧ t.Inv
      ∧ t.finalCoder bs = coderRun (xs.map BitVec.toNat) := by
  cases xs with
  | nil => exact ⟨[], s, rfl, .refl s, h, by rw [State.finalCoder, hp]; exact hfresh⟩
  | cons x xs =>
    have hx := toNat_literalCode x
    have hfirst := symEffect_first x hp
    have hr : Routed [] s (symEffect x s) := by rw [hfirst]; rfl
    have hinv : (symEffect x s).Inv := by
      rw [hfirst] at hr ⊢
      exact hr.inv h hm h.nextCodeRange h.widthLeast h.tableCodes rfl (.inl (hx ▸ x.isLt)) h.bitsHeld
    obtain ⟨bs, t, hrun, hsim⟩ := runWords_syms xs hinv (hr.err.trans he) (hr.mode ▸ hm) (by rw [hfirst])
    refine ⟨bs, t, (runWords_cons (stepWord_encode he (legalIn_sym x hm))).trans hrun, hr.append hsim.routed,
      hsim.inv, ?_⟩
    have hcoder : (xs.map BitVec.toNat).foldl coderStep (coderEmit 4 coderFresh, x.toNat)
        = (t.coder bs, t.prefixCode.toNat) := by
      rw [← hfresh, ← hx, ← List.nil_append bs, ← hsim.coder, hfirst]
      rfl
    rw [State.finalCoder, hsim.hasMatch, List.map_cons, coderRun, hcoder]
    rfl

/-- A whole compressor frame from an IDLE state (R113). -/
theorem runWords_frameWords (raw : Bool) (xs : List Sym) {s : State} (h : s.Inv) (he : s.err = false)
    (hm : s.mode = .idle) : runWords (frameWords raw xs) s = .next { s with
      mode := .idle, table := [], nextCode := 6, width := 3, prefixCode := 0, havePrefix := false
      bitBuf := 0, bitCnt := 0, pkBuf := []
      outQ := s.outQ ++ asFrameOutput (if raw then lzw xs else pack (lzw xs)) } := by
  have hstart : stepWord (encode (.start raw)) s = .next (startEffect raw s) :=
    stepWord_encode (i := .start raw) he (beq_iff_eq.2 hm)
  have he₀ : (startEffect raw s).err = false := (effectOf_err (.start raw) s).trans he
  have hopen := startEffect_open raw s
  obtain ⟨bs, t, hrun, hr, ht, hcoder⟩ := runWords_frameSyms xs (startEffect_inv raw h hm) he₀ hopen
    (by rw [startEffect_eq]) (startEffect_coder raw s)
  have hend := stepWord_end_of_routed hr ht he₀ hopen (by rw [startEffect_eq])
  rw [hcoder] at hend
  rw [frameWords, List.cons_append, runWords_cons hstart, runWords_append hrun, runWords_cons hend, startEffect_eq]
  cases raw <;> rfl

/-! ## A packer frame -/

/-- A sequence of PBYTEs packs its bytes (R144, R140). -/
theorem runWords_pbytes (ys : List Byte) {s : State} (he : s.err = false) (hm : s.mode = .direct) :
    runWords (ys.map fun b => encode (.pbyte b)) s = .next { s with
      outQ := s.outQ ++ unmarked (packAll s.pkBuf ys).1
      pkBuf := (packAll s.pkBuf ys).2 } := by
  induction ys generalizing s with
  | nil => simp [packAll, runWords]
  | cons y ys ih =>
    have hstep : stepWord (encode (.pbyte y)) s = .next (packByte y s) :=
      stepWord_encode (i := .pbyte y) he (beq_iff_eq.2 hm)
    have hmode : (packByte y s).mode = .direct := by rw [packByte_eq, hm]
    rw [List.map_cons, runWords_cons hstep, ih ((packByte_err y s).trans he) hmode, packByte_eq]
    simp [packAll]

/-- A whole packer frame from an IDLE state (R146). -/
theorem runWords_packerWords (ys : List Byte) {s : State} (he : s.err = false) (hm : s.mode = .idle) :
    runWords (packerWords ys) s = .next
      { s with mode := .idle, pkBuf := [], outQ := s.outQ ++ asFrameOutput (pack ys) } := by
  have hstart : stepWord (encode .pstart) s = .next { s with mode := .direct, pkBuf := [] } :=
    stepWord_encode (i := .pstart) he (beq_iff_eq.2 hm)
  have hrun := runWords_pbytes ys (s := { s with mode := .direct, pkBuf := [] }) he rfl
  have hend := stepWord_encode (i := .pend) (s := { s with
    mode := .direct
    outQ := s.outQ ++ unmarked (packAll [] ys).1
    pkBuf := (packAll [] ys).2 }) he rfl
  have hpack : pack ys = (packAll [] ys).1 ++ packTail (packAll [] ys).2 := (packAll_pack (c := []) ys (by decide)).symm
  rw [packerWords, List.cons_append, runWords_cons hstart, runWords_append hrun, runWords_cons hend, hpack,
    asFrameOutput_append _ (packTail_ne_nil _)]
  simp [runWords, effectOf, withLastMark, pendEffect, packEnd_eq, asFrameOutput, unmarked]

/-! ## Sequences of frames -/

/-- What a frame writes over the IDLE values leaves an IDLE state as it was (R31). -/
theorem idle_eq {s : State} (h : s.Inv) (hm : s.mode = .idle) : { s with
    mode := .idle, table := [], nextCode := 6, width := 3, prefixCode := 0, havePrefix := false
    bitBuf := 0, bitCnt := 0, pkBuf := [] } = s := by
  obtain ⟨htable, hnext, hwidth, hcode, hp, hbuf, hcnt⟩ := h.compressorIdle (.inl hm)
  rw [← hm, ← htable, ← hnext, ← hwidth, ← hcode, ← hp, ← hbuf, ← hcnt, ← h.packerEmpty (.inl hm)]

/-- Any one frame, from an IDLE state back to it (R113, R146). -/
theorem runWords_wordsOf (f : Frame) {s : State} (h : s.Inv) (he : s.err = false) (hm : s.mode = .idle) :
    runWords (wordsOf f) s = .next { s with outQ := s.outQ ++ asFrameOutput (bytesOf f) } := by
  have hidle := idle_eq (s := { s with outQ := s.outQ ++ asFrameOutput (bytesOf f) }) { h with } hm
  cases f with
  | raw xs => exact (runWords_frameWords true xs h he hm).trans (congrArg _ hidle)
  | packed xs => exact (runWords_frameWords false xs h he hm).trans (congrArg _ hidle)
  | direct ys =>
    rw [wordsOf, runWords_packerWords ys he hm, ← hm, ← h.packerEmpty (.inl hm)]
    rfl

/-- Settles O44: by induction on the frames; each starts in the IDLE state the one before it left. -/
theorem frameSequenceConcatenates : Obligations.FrameSequenceConcatenates := by
  intro s fs h he hm
  induction fs generalizing s with
  | nil => rw [List.flatMap_nil, List.flatMap_nil, List.append_nil]; rfl
  | cons f fs ih =>
    have hrest := ih { s with outQ := s.outQ ++ asFrameOutput (bytesOf f) } { h with } he hm
    rw [List.flatMap_cons, runWords_append (runWords_wordsOf f h he hm), hrest, List.flatMap_cons, List.append_assoc]

end Sys2Proof.Machine
end

-- ==== The packer: its commands, Pack(y) and its reader (41_packer.md) ====
section
/-! The packer: the three commands (R143 to R145), and `Pack(y)` chunk by chunk (R146), from which its length (R147) and
what a reader makes of it (R149) follow. -/

namespace Sys2Proof.Machine

/-! ## Reserved bits -/

/-- A reserved bit of a legal opcode latches RESERVED_BITS, the bits given by `rsvmask` (R74, R76). -/
theorem stepWord_reservedBits {w : Word} {s : State} {mask : Byte} (he : s.err = false)
    (hmask : reservedMask (fieldOp w) = some mask) (hset : fieldRsv w ≠ 0 ∨ fieldOpd w &&& mask ≠ 0) :
    stepWord w s = .next (latched .reservedBits w s) :=
  reservedBitRaisesItsError w s he ((opcodeLegal_iff w).2 ⟨mask, hmask⟩) ((reservedBitSet_iff hmask).2 hset)

/-- A command with no operand has every bit below OP reserved (R72, R74). -/
theorem stepWord_reservedBits_of_no_operand {w : Word} {s : State} (he : s.err = false)
    (hmask : reservedMask (fieldOp w) = some 0xFF) (hset : w.extractLsb' 0 12 ≠ 0) :
    stepWord w s = .next (latched .reservedBits w s) := by
  have hall : fieldOpd w &&& 0xFF = fieldOpd w := BitVec.and_allOnes
  exact stepWord_reservedBits he hmask (hall.symm ▸ rsv_or_opd_ne_zero hset)

/-! ## PSTART -/

/-- Settles O29: PSTART's effect is its definition; its errors are the mode's and the decoder's. -/
theorem pstartOpensAPackerFrame : Obligations.PstartOpensAPackerFrame :=
  ⟨decode_encode .pstart, fun _ he => ⟨fun hm => exec_effectOf (i := .pstart) he (beq_iff_eq.2 hm),
    fun hm => exec_illegal (i := .pstart) he (beq_eq_false_iff_ne.2 hm),
    fun w hop => stepWord_reservedBits_of_no_operand he (by rw [fieldOp, hop]; rfl)⟩⟩

/-! ## PBYTE -/

theorem encode_pbyte (b : Byte) : encode (.pbyte b) = BitVec.ofNat 16 (0x5000 + b.toNat) := by
  rw [← encode_pbyte_ofNat (Nat.le_of_lt_succ b.isLt), BitVec.ofNat_toNat, BitVec.setWidth_eq]

/-- With room in the chunk the packer keeps the byte (R140). -/
theorem packByte_room (b : Byte) {s : State} (h : s.pkCnt < 254) :
    packByte b s = { s with pkBuf := s.pkBuf ++ [b] } := by
  have hne : s.pkBuf.length ≠ 254 := h.ne
  simp [packByte_eq, packStep, hne]

/-- The 255th byte sends the chunk out behind its length (R140). -/
theorem packByte_full (b : Byte) {s : State} (h : s.pkCnt = 254) :
    packByte b s = { s with pkBuf := [], outQ := s.outQ ++ unmarked (0xFF :: s.pkBuf ++ [b]) } := by
  have hlen : s.pkBuf.length = 254 := h
  simp [packByte_eq, packStep, hlen]

/-- Settles O30: a legal PBYTE is `PackByte`, with room in the chunk or with none but for this byte. -/
theorem pbyteFillsTheChunk : Obligations.PbyteFillsTheChunk := by
  refine ⟨fun b => encode_pbyte b ▸ decode_encode _,
    fun s b he => ⟨fun hm hlen => ?_, fun hm hlen => ?_, fun hm => ?_, fun w hop hrsv => ?_⟩⟩
  · rw [exec_effectOf (i := .pbyte b) he (beq_iff_eq.2 hm), effectOf, packByte_room b hlen]
  · rw [exec_effectOf (i := .pbyte b) he (beq_iff_eq.2 hm), effectOf, packByte_full b hlen]; rfl
  · rw [exec_illegal (i := .pbyte b) he (beq_eq_false_iff_ne.2 hm), encode_pbyte]
  · exact stepWord_reservedBits (mask := 0) he (by rw [fieldOp, hop]; rfl) (.inl hrsv)

/-! ## PEND -/

/-- PEND with its mark: the rest of the chunk goes out, and the terminator is marked (R145, R58). -/
theorem withLastMark_pendEffect (s : State) : withLastMark pendEffect s =
    { s with mode := .idle, pkBuf := [], outQ := s.outQ ++ asFrameOutput (packTail s.pkBuf) } := by
  simp [withLastMark, pendEffect, packEnd_eq, asFrameOutput, unmarked]

/-- With no byte in the chunk the terminator goes out alone (R141). -/
theorem asFrameOutput_packTail_nil : asFrameOutput (packTail []) = [⟨0, true⟩] := rfl

/-- A chunk that holds a byte goes out behind its length, in front of the terminator (R141). -/
theorem asFrameOutput_packTail {c : List Byte} (h : c ≠ []) :
    asFrameOutput (packTail c) = unmarked (BitVec.ofNat 8 c.length :: c) ++ [⟨0, true⟩] := by
  rw [packTail, if_neg h, asFrameOutput_append _ (List.cons_ne_nil _ _)]
  rfl

/-- Settles O31: a legal PEND is `PackEnd` with its mark, with the chunk empty or not. -/
theorem pendClosesThePackerFrame : Obligations.PendClosesThePackerFrame := by
  refine ⟨decode_encode .pend, fun s he => ⟨fun hm hlen => ?_, fun hm hlen _ => ?_,
    fun hm => exec_illegal (i := .pend) he (beq_eq_false_iff_ne.2 hm),
    fun w hop => stepWord_reservedBits_of_no_operand he (by rw [fieldOp, hop]; rfl)⟩⟩
  · have hempty : s.pkBuf = [] := List.eq_nil_of_length_eq_zero hlen
    rw [exec_effectOf (i := .pend) he (beq_iff_eq.2 hm), effectOf, withLastMark_pendEffect, hempty,
      asFrameOutput_packTail_nil]
  · have hne : s.pkBuf ≠ [] := List.ne_nil_of_length_pos hlen
    rw [exec_effectOf (i := .pend) he (beq_iff_eq.2 hm), effectOf, withLastMark_pendEffect,
      asFrameOutput_packTail hne, List.append_assoc]
    rfl

/-! ## `Pack(y)` chunk by chunk -/

/-- Induction on the chunks of a byte sequence, the first one taken off (R146). -/
theorem chunk_induction {P : List Byte → Prop} (nil : P []) (chunk : ∀ y, y ≠ [] → P (y.drop 255) → P y)
    (y : List Byte) : P y :=
  if h : y = [] then h ▸ nil else chunk y h (chunk_induction nil chunk (y.drop 255))
termination_by y.length
decreasing_by
  have hpos := List.length_pos_iff.2 h
  rw [List.length_drop]
  omega

/-- The first chunk, whole or partial, goes out behind its length, in front of `Pack` of the rest (R146). -/
theorem pack_chunk {y : List Byte} (h : y ≠ []) :
    pack y = BitVec.ofNat 8 (y.take 255).length :: y.take 255 ++ pack (y.drop 255) := by
  by_cases hlong : 255 ≤ y.length
  · rw [pack_long hlong, List.length_take_of_le hlong]
    rfl
  · have hshort : y.length ≤ 255 := Nat.le_of_not_ge hlong
    rw [pack_short hshort, packTail, if_neg h, List.take_of_length_le hshort, List.drop_of_length_le hshort, pack_nil]

/-- The length law (R147). -/
theorem length_pack (y : List Byte) : (pack y).length = y.length + (y.length + 254) / 255 + 1 := by
  induction y using chunk_induction with
  | nil => rfl
  | chunk y hne ih =>
    have hpos := List.length_pos_iff.2 hne
    rw [pack_chunk hne, List.length_append, List.length_cons, ih, List.length_take, List.length_drop]
    omega

/-- A chunk has what is left of the sequence, 255 bytes at most (R146). -/
theorem length_chunkOf (y : List Byte) (j : Nat) : (chunkOf y j).length = min 255 (y.length - 255 * j) := by
  rw [chunkOf, List.length_take, List.length_drop]

/-- Settles O46: the length law by induction on the chunks; what is left for chunk `j` falls below 255 for the last
chunk only. -/
theorem packLengthLaw : Obligations.PackLengthLaw := by
  refine fun y => ⟨length_pack y, fun j hj => ?_⟩
  rw [length_chunkOf]
  split <;> omega

/-! ## The reader of `Pack(y)` -/

theorem unpackFuel_terminator (f : Nat) (z : List Byte) : unpackFuel (f + 1) (0 :: z) = some ([], z) := rfl

/-- The reader takes one sub-block and puts its bytes in front of what it reads behind it (R149). -/
theorem unpackFuel_block {f : Nat} {c rest y z : List Byte} (hne : c ≠ []) (hlen : c.length ≤ 255)
    (hrest : unpackFuel f rest = some (y, z)) :
    unpackFuel (f + 1) (BitVec.ofNat 8 c.length :: (c ++ rest)) = some (c ++ y, z) := by
  have hn : (BitVec.ofNat 8 c.length).toNat = c.length :=
    (BitVec.toNat_ofNat _ _).trans (Nat.mod_eq_of_lt (Nat.lt_succ_of_le hlen))
  have hn0 : BitVec.ofNat 8 c.length ≠ 0 := fun h0 =>
    hne (List.eq_nil_of_length_eq_zero (hn.symm.trans (congrArg BitVec.toNat h0)))
  have hfits : ¬ (c ++ rest).length < c.length := by simp
  rw [unpackFuel, if_neg hn0, hn, if_neg hfits, List.drop_left, List.take_left, hrest]

/-- Fuel for as many blocks as there are bytes, and for the terminator, is enough (R149). -/
theorem unpackFuel_pack (y z : List Byte) {f : Nat} (hf : y.length ≤ f) :
    unpackFuel (f + 1) (pack y ++ z) = some (y, z) := by
  induction y using chunk_induction generalizing f with
  | nil => exact unpackFuel_terminator f z
  | chunk y hne ih =>
    have hpos := List.length_pos_iff.2 hne
    obtain ⟨f, rfl⟩ := Nat.exists_eq_add_one_of_ne_zero (hpos.trans_le hf).ne'
    have hrest := ih (f := f) (by rw [List.length_drop]; omega)
    have hblock := unpackFuel_block (c := y.take 255) (by simpa using hne) (List.length_take_le 255 y) hrest
    rw [pack_chunk hne, List.cons_append, List.cons_append, List.append_assoc, hblock, List.take_append_drop]

/-- Settles O47: the stream is longer than `y` (R147), so the reader's fuel is enough. -/
theorem readerRecoversPackedBytes : Obligations.ReaderRecoversPackedBytes := by
  intro y z
  have hlen : (pack y ++ z).length = y.length + (y.length + 254) / 255 + z.length + 1 := by
    rw [List.length_append, length_pack]
    omega
  rw [unpack, hlen]
  exact unpackFuel_pack y z (by omega)

end Sys2Proof.Machine
end

-- ==== Errors and the halted block (60_exceptions.md) ====
section
/-! Errors: which cause a word latches and what else it does (R162, R163), and that a halted block discards every word
(R164) and is left by reset alone (R165). -/

namespace Sys2Proof

/-! ## The word of a decoded command -/

/-- With its reserved bits zero, OPD holds the operand of the command it selects and nothing else (R72, R74). -/
theorem opd_of_commandOf {op : BitVec 4} {mask d : Byte} {i : Instr} (hmask : reservedMask op = some mask)
    (hopd : d &&& mask = 0) (hcmd : commandOf op d = some i) : d = fieldOpd (operandBits i) := by
  have hnone : d &&& 0xFF = 0 → d = 0 := fun h => BitVec.and_allOnes.symm.trans h
  rcases opcode_cases op with rfl | rfl | rfl | rfl | rfl | rfl | ⟨-, hillegal⟩
  · cases hmask; cases hcmd; revert d; decide
  · cases hmask; cases hcmd; revert d; decide
  · cases hmask; cases hcmd; exact hnone hopd
  · cases hmask; cases hcmd; exact hnone hopd
  · cases hcmd; simp [operandBits, fieldOpd, BitVec.extractLsb'_setWidth_of_le]
  · cases hmask; cases hcmd; exact hnone hopd
  · simp [hillegal] at hcmd

/-- A word is fixed by the command it decodes to: OP by the row, RSV zero, OPD by the operand (R72, R73). -/
theorem eq_ofFields_of_decode {w : Word} {i : Instr} (h : decode w = .ok i) :
    w = ofFields (opcodeOf i) 0 (fieldOpd (operandBits i)) := by
  rw [← ofFields_fields w, decode_ok_iff] at h
  obtain ⟨hrsv, mask, hmask, hopd, hcmd⟩ := h
  conv_lhs => rw [← ofFields_fields w]
  exact ofFields_inj.2 ⟨opcode_of_commandOf hcmd, hrsv, opd_of_commandOf hmask hopd hcmd⟩

namespace Machine

/-- No two words decode to one command, so the word of a decoded command is the word it came from. -/
theorem encode_of_decode {w : Word} {i : Instr} (h : decode w = .ok i) : encode i = w :=
  (eq_ofFields_of_decode (decode_encode i)).trans (eq_ofFields_of_decode h).symm

/-! ## The first cause in order -/

/-- The cause a word latches if it latches one (R162): the decoder's, or the mode's for a word it accepts. -/
def firstCause (w : Word) : Cause :=
  match decode w with
  | .error e => causeOf e
  | .ok _ => .modeViolation

theorem firstCause_error {w : Word} {e : DecodeError} (h : decode w = .error e) : firstCause w = causeOf e := by
  simp [firstCause, h]

theorem firstCause_ok {w : Word} {i : Instr} (h : decode w = .ok i) : firstCause w = .modeViolation := by
  simp [firstCause, h]

theorem firstCause_of_not_opcodeLegal {w : Word} (hop : ¬ opcodeLegal w) : firstCause w = .illegalOpcode :=
  firstCause_error ((decode_eq_illegalOpcode_iff w).2 hop)

theorem firstCause_of_reservedBitSet {w : Word} (hop : opcodeLegal w) (hset : reservedBitSet w) :
    firstCause w = .reservedBits :=
  firstCause_error ((decode_eq_reservedBits_iff w).2 ⟨hop, hset⟩)

/-- A word with a legal OP and no reserved bit set is a command. -/
theorem firstCause_of_command {w : Word} (hop : opcodeLegal w) (hset : ¬ reservedBitSet w) :
    firstCause w = .modeViolation := by
  cases hd : decode w with
  | ok i => exact firstCause_ok hd
  | error e =>
    cases e with
    | illegalOpcode => exact absurd hop ((decode_eq_illegalOpcode_iff w).1 hd)
    | reservedBits => exact absurd ((decode_eq_reservedBits_iff w).1 hd).2 hset

/-- A word that leaves an error latched has latched the first cause and itself, and done nothing else (R162, R163). -/
theorem stepWord_latches {w : Word} {s t : State} (he : s.err = false) (h : stepWord w s = .next t)
    (ht : t.err = true) : t = latched (firstCause w) w s := by
  rcases stepWord_cases h with ⟨he', -⟩ | ⟨-, e, hd, rfl⟩ | ⟨-, i, -, -, rfl⟩ | ⟨-, i, hd, -, rfl⟩
  · simp [he] at he'
  · rw [firstCause_error hd]; rfl
  · simp [effectOf_err, he] at ht
  · rw [firstCause_ok hd, encode_of_decode hd]; rfl

/-- Settles O8: the new state is the old one with the first cause latched, and the `err` line is the latch. -/
theorem errorsArePreciseAndOrdered : Obligations.ErrorsArePreciseAndOrdered := by
  intro w s t he h ht
  have hlatched := stepWord_latches he h ht
  have hcause : t.cause = firstCause w := by rw [hlatched]
  rw [hcause, errLine_eq]
  exact ⟨hlatched, ht, firstCause_of_not_opcodeLegal, firstCause_of_reservedBitSet, firstCause_of_command⟩

/-! ## The halted block -/

/-- A halted block never holds a word back (R164). -/
theorem accepts_halted {s : State} (t : State) (he : s.err = true) : accepts s t = true := by
  simp [accepts, he]

/-- A command turn of a halted block consumes the word and does nothing else (R164). -/
theorem commandTurn_halted {s : State} {w : Word} {rest : List Word} (he : s.err = true)
    (hc : s.cmdIn = w :: rest) : commandTurn s = .next { s with cmdIn := rest } := by
  rw [commandTurn_cons hc (stepWord_halted he), if_pos (accepts_halted _ he)]

theorem step_of_commandTurnNext {s : State} {ts : List Turn} (h : commandTurnNext s ts) :
    step s = commandTurn { s with turns := ts } := by
  rcases h with h | ⟨h, rfl⟩
  · exact step_command h
  · exact step_none h

theorem runWords_halted {s : State} (he : s.err = true) (ws : List Word) : runWords ws s = .next s := by
  induction ws with
  | nil => rfl
  | cons w ws ih => rw [runWords_cons (stepWord_halted he), ih]

/-- Settles O9: a command turn consumes the word, and a sequence of words is the identity by induction. -/
theorem haltedBlockDiscardsEveryWord : Obligations.HaltedBlockDiscardsEveryWord :=
  fun _ he => ⟨fun _ _ _ hturn hc => (step_of_commandTurnNext hturn).trans (commandTurn_halted he hc),
    runWords_halted he⟩

/-! ## The only way out -/

/-- A command turn of a halted block changes neither the block nor the stream (R164). -/
theorem commandTurn_halted_sameStream {s t : State} (he : s.err = true) (h : commandTurn s = .next t) :
    SameStream t s := by
  cases hc : s.cmdIn with
  | nil => cases (commandTurn_nil hc).symm.trans h; exact .refl s
  | cons w rest => cases (commandTurn_halted he hc).symm.trans h; exact .of_offers s rest s.turns

/-- No step of a halted block but a reset changes the block or the stream (R164, R165). -/
theorem step_halted_sameStream {s t : State} (he : s.err = true) (h : step s = .next t)
    (hr : ∀ ts, s.turns ≠ .reset :: ts) : SameStream t s := by
  have hturn (ts : List Turn) : SameStream { s with turns := ts } s := .of_offers s s.cmdIn ts
  rcases step_cases h with ⟨ts, -, hcommand⟩ | ⟨ts, -, rfl⟩ | ⟨ts, hts, -⟩
  · exact (commandTurn_halted_sameStream (s := { s with turns := ts }) he hcommand).trans (hturn ts)
  · exact (takeByte_sameStream _).trans (hturn ts)
  · exact absurd hts (hr ts)

/-- Settles O10: a reset turn is `assertReset`, and no other step of a halted block changes the block. -/
theorem latchHoldsUntilReset : Obligations.LatchHoldsUntilReset := by
  intro s t he h
  refine ⟨?_, fun hr => (step_halted_sameStream he h hr).1⟩
  rintro ⟨ts, hts⟩
  cases (step_reset hts).symm.trans h
  exact ⟨rfl, rfl, rfl⟩

end Machine
end Sys2Proof
end

-- ==== Reset and the output stream (70_reset_and_hazards.md) ====
section
/-! Reset: the block loses its state whole, and the host keeps a prefix of the stream wherever the free cut falls
(R180, R181). -/

namespace Sys2Proof.Machine

/-- Every element of the block takes its reset value; only the outside world's side of the ports keeps anything of the
state before (R180). -/
theorem assertReset_withPortsOf_reset (s : State) : (assertReset s).withPortsOf State.reset = State.reset := rfl

/-- What the host had taken stays with it across a reset (R181). -/
theorem taken_prefix_assertReset_taken (s : State) : s.taken <+: (assertReset s).taken := by
  rw [assertReset_taken]
  exact List.prefix_append _ _

/-- Reset adds no byte to the stream and skips none: wherever the cut falls, the bytes kept are the oldest of those
the host had yet to take (R181). -/
theorem assertReset_taken_prefix_output (s : State) : (assertReset s).taken <+: s.output := by
  have hcut : s.outQ.take (Config.resetCut s.draws) <+: s.outQ := List.take_prefix _ _
  rw [assertReset_taken]
  exact (List.prefix_append_right_inj s.taken).2 hcut

/-- Settles O12: a reset turn is `assertReset`, and the turn it uses up is no part of the stream. -/
theorem resetCutsTheOutputStream : Obligations.ResetCutsTheOutputStream :=
  fun s ts hreset => ⟨_, step_reset hreset, assertReset_withPortsOf_reset _, assertReset_outQ _,
    taken_prefix_assertReset_taken { s with turns := ts }, assertReset_taken_prefix_output { s with turns := ts }⟩

end Sys2Proof.Machine
end

-- ==== The encoding, both ways, and the assembler's written lines (30_encoding.md) ====
section
/-! That decoder and encoder are inverse (R72, R73), the words of the assembler's lines (R78), and that case and comments
do not matter on a written line. -/

namespace Sys2Proof.Machine

/-! ## Decoding and encoding -/

/-- Settles O2: the word of a command agrees with its row and holds its operand in OPD. -/
theorem decodeOfEncodeGivesTheCommand : Obligations.DecodeOfEncodeGivesTheCommand := fun i _ => decode_encode i

/-- Settles O3: every command is well-formed, and a word is fixed by the command it decodes to. -/
theorem encodeOfDecodeGivesTheWord : Obligations.EncodeOfDecodeGivesTheWord :=
  fun _ i h => ⟨(encoding_statement i).1, encode_of_decode h⟩

/-- Settles O1: seven of the words are the words of commands; of the others, one has OP 0 and one has bit 2 set under
the OP of SYM. -/
theorem tableWordsDecodeToTheirCommands : Obligations.TableWordsDecodeToTheirCommands :=
  ⟨decode_encode (.start false), decode_encode (.start true), decode_encode (.sym 3), decode_encode .endFrame,
    decode_encode .pstart, decode_encode (.pbyte 0xFE), decode_encode .pend,
    (decode_eq_illegalOpcode_iff _).2 (by decide), (decode_eq_reservedBits_iff _).2 (by decide)⟩

/-! ## The assembler's lines -/

/-- A line whose numbers do not fit their fields is refused (R78). -/
theorem assembleLine_ill_formed {l : AsmLine} (h : l.wellFormed = false) : assembleLine l = none := by
  rw [assembleLine, h]
  rfl

/-- A line with one number, `m` the most its field holds, is assembled up to `m` and refused above (R78). -/
theorem assembleLine_number {l : AsmLine} {n m : Nat} {w : Word} (hl : l.wellFormed = decide (n < m + 1))
    (hw : n ≤ m → wordsOfLine l = [w]) : assembleLine l = if n ≤ m then some [w] else none := by
  split_ifs with h
  · exact assembleLine_wellFormed (hl.trans (decide_eq_true (by omega))) (hw h)
  · exact assembleLine_ill_formed (hl.trans (decide_eq_false (by omega)))

/-- Settles O48: a line with no number is its command's word, and a line with one is assembled when it fits. -/
theorem assemblerWordsAndRefusals : Obligations.AssemblerWordsAndRefusals :=
  ⟨rfl, rfl, fun _ => assembleLine_number rfl fun h => congrArg ([·]) (encode_sym_ofNat h), rfl, rfl,
    fun _ => assembleLine_number rfl fun h => congrArg ([·]) (encode_pbyte_ofNat h), rfl,
    fun _ => assembleLine_number rfl fun _ => rfl⟩

/-! ## Written lines -/

/-- A character that is no letter is the capital of itself alone. -/
theorem toUpper_eq_iff {c d : Char} (hd : d.isAlpha = false) : c.toUpper = d ↔ c = d := by
  have hself {e : Char} (he : e.isAlpha = false) : e.toUpper = e :=
    Char.toUpper_eq_of_not_isLower fun hlower => by simp [Char.isAlpha, hlower] at he
  constructor
  · rintro rfl
    rw [Char.isAlpha_toUpper_eq_isAlpha] at hd
    exact (hself hd).symm
  · rintro rfl
    exact hself hd

/-- Separators are no letters (log 12). -/
theorem isSeparator_toUpper (c : Char) : isSeparator c.toUpper = isSeparator c := by
  simp only [isSeparator, toUpper_eq_iff (show Char.isAlpha ' ' = false by decide),
    toUpper_eq_iff (show Char.isAlpha '\t' = false by decide), toUpper_eq_iff (show Char.isAlpha ',' = false by decide)]

/-- Tokens are in capitals already (log 12). -/
theorem tokens_map_toUpper (cur cs : List Char) : tokens cur (cs.map Char.toUpper) = tokens cur cs := by
  induction cs generalizing cur with
  | nil => rfl
  | cons c cs ih =>
    simp only [List.map_cons, tokens, isSeparator_toUpper, Char.toUpper_toUpper_eq_toUpper, ih]

/-- The part of a line before its comment, in capitals (R78). -/
theorem takeWhile_map_toUpper (cs : List Char) :
    (cs.map Char.toUpper).takeWhile (· ≠ ';') = (cs.takeWhile (· ≠ ';')).map Char.toUpper := by
  have hmark : (fun c : Char => decide (c ≠ ';')) ∘ Char.toUpper = fun c => decide (c ≠ ';') :=
    funext fun c => decide_eq_decide.2 (not_congr (toUpper_eq_iff (by decide)))
  rw [List.takeWhile_map, hmark]

/-- The part of a line before its comment does not see the comment (R78). -/
theorem takeWhile_comment {cs : List Char} (ds : List Char) (h : ';' ∉ cs) :
    (cs ++ ';' :: ds).takeWhile (· ≠ ';') = cs.takeWhile (· ≠ ';') := by
  have hall : ∀ c ∈ cs, decide (c ≠ ';') = true := fun c hc => decide_eq_true fun heq => h (heq ▸ hc)
  rw [List.takeWhile_append_of_pos hall, List.takeWhile_eq_self_iff.2 hall]
  simp

/-- A line is assembled from its tokens alone. -/
theorem assembleText_congr {cs ds : List Char}
    (h : tokens [] (cs.takeWhile (· ≠ ';')) = tokens [] (ds.takeWhile (· ≠ ';'))) :
    assembleText cs = assembleText ds := by
  rw [assembleText, h]
  rfl

/-- Settles O50: capitals change neither the separators, nor where the comment begins, nor the tokens. -/
theorem writtenLinesIgnoreCaseAndComments : Obligations.WrittenLinesIgnoreCaseAndComments :=
  ⟨fun cs => assembleText_congr (by rw [takeWhile_map_toUpper, tokens_map_toUpper]),
    fun _ ds h => assembleText_congr (by rw [takeWhile_comment ds h])⟩

end Sys2Proof.Machine
end

-- ==== The invariants, kept by every step (10_state.md) ====
section
/-! The invariants of 10_state.md: they hold at reset and are kept by every command, every error and every turn, and in
IDLE they fix the block but for the latch. -/

namespace Sys2Proof.Machine

/-! ## Reset and IDLE -/

/-- With the compressor at its IDLE values and an empty chunk, only the latch has an invariant left (R31 to R37). -/
theorem Inv_of_compressorIdle {s : State} (hc : s.CompressorIdle) (hpk : s.pkBuf = [])
    (hset : s.err = true → s.cause ≠ .none) (hclear : s.err = false → s.cause = .none ∧ s.errcmd = 0) : s.Inv := by
  obtain ⟨htable, hnext, hwidth, hcode, hp, hbuf, hcnt⟩ := hc
  exact {
    compressorIdle := fun _ => ⟨htable, hnext, hwidth, hcode, hp, hbuf, hcnt⟩
    packerEmpty := fun _ => hpk
    chunkShort := by simp [State.pkCnt, hpk]
    nextCodeRange := by rw [hnext]; decide
    widthLeast := by rw [hnext, hwidth]; decide
    tableCodes := by rw [hnext, htable]; decide
    prefixKnown := fun hp' => absurd (hp.symm.trans hp') (by decide)
    prefixZero := fun _ => hcode
    bitsHeld := by rw [hbuf, hcnt]; decide
    latchSet := hset
    latchClear := hclear }

/-- Settles O13: every register of the reset state has its IDLE value, and the latch is clear. -/
theorem resetStateHasTheInvariants : Obligations.ResetStateHasTheInvariants :=
  Inv_of_compressorIdle ⟨rfl, rfl, rfl, rfl, rfl, rfl, rfl⟩ rfl (fun he => nomatch he) fun _ => ⟨rfl, rfl⟩

/-- The invariants speak of the block alone. -/
theorem inv_withPortsOf_iff {s : State} (p : State) : (s.withPortsOf p).Inv ↔ s.Inv :=
  ⟨fun h => { h with }, fun h => { h with }⟩

/-- The state a reset turn leaves has the invariants, whatever came before: its block is that of the reset state
(R38). -/
theorem assertReset_inv (s : State) : (assertReset s).Inv :=
  (inv_withPortsOf_iff State.reset).1 ((assertReset_withPortsOf_reset s).symm ▸ resetStateHasTheInvariants)

/-- Settles O11: a reset turn is `assertReset`, which writes every element of the block. -/
theorem resetSetsEveryElement : Obligations.ResetSetsEveryElement := fun _ _ hreset =>
  ⟨_, step_reset hreset, rfl, rfl, rfl, rfl, rfl, rfl, rfl, rfl, rfl, rfl, rfl, rfl,
    statusPort_idle (assertReset_inv _) rfl rfl, rfl, errLine_eq _, rfl, rfl⟩

/-- Settles O38: in IDLE the invariants give every register but the latch its value, and both states have it. -/
theorem idleStateIsUnique : Obligations.IdleStateIsUnique := by
  intro s t hs ht hms hmt
  conv_rhs => rw [← idle_eq hs hms]
  conv_lhs => rw [← idle_eq ht hmt]
  rfl

/-! ## The commands -/

/-- SYM is legal inside a compressor frame only (R77). -/
theorem packed_or_raw_of_legalIn_sym {x : Sym} {m : Mode} (hl : legalIn (.sym x) m = true) :
    m = .packed ∨ m = .raw := by
  simpa [legalIn] using hl

/-- So is END (R77). -/
theorem packed_or_raw_of_legalIn_endFrame {m : Mode} (hl : legalIn .endFrame m = true) : m = .packed ∨ m = .raw := by
  simpa [legalIn] using hl

/-- States with one block have the invariants or not together. -/
theorem SameStream.inv {s t : State} (h : SameStream s t) (ht : t.Inv) : s.Inv :=
  (inv_withPortsOf_iff t).1 (h.1.symm ▸ ht)

/-- Error entry latches a cause (R37, R163). -/
theorem raiseError_inv {c : Cause} (w : Word) {s : State} (hc : c ≠ .none) (h : s.Inv) : (raiseError c w s).Inv :=
  { h with latchSet := fun _ => hc, latchClear := fun he => nomatch he }

theorem causeOf_ne_none (e : DecodeError) : causeOf e ≠ .none := by cases e <;> simp [causeOf]

/-- SYM keeps the invariants: the first symbol is a code below 4, and the others follow R113's loop (R111). -/
theorem symEffect_inv (x : Sym) {s : State} (h : s.Inv) (hm : s.mode = .packed ∨ s.mode = .raw) :
    (symEffect x s).Inv := by
  cases hp : s.havePrefix with
  | false =>
    have hknown : (literalCode x).toNat < 4 := toNat_literalCode x ▸ x.isLt
    rw [symEffect_first x hp]
    have hr : Routed [] s { s with prefixCode := literalCode x, havePrefix := true } := rfl
    exact hr.inv h hm h.nextCodeRange h.widthLeast h.tableCodes rfl (.inl hknown) h.bitsHeld
  | true =>
    obtain ⟨bs, hx⟩ := simulates_symEffect h hm hp x
    exact hx.inv

/-- END leaves the IDLE values (R112). -/
theorem withLastMark_endEffect_inv {s : State} (h : s.Inv) (hm : s.mode = .packed ∨ s.mode = .raw) :
    (withLastMark endEffect s).Inv := by
  obtain ⟨bs, pad, -, -, -, -, heq⟩ := withLastMark_endEffect h hm
  rw [heq]
  exact Inv_of_compressorIdle ⟨rfl, rfl, rfl, rfl, rfl, rfl, rfl⟩ rfl h.latchSet h.latchClear

/-- PSTART leaves the compressor at its IDLE values (R143). -/
theorem pstartEffect_inv {s : State} (h : s.Inv) (hm : s.mode = .idle) : (pstartEffect s).Inv :=
  Inv_of_compressorIdle (s := pstartEffect s) (h.compressorIdle (.inl hm)) rfl h.latchSet h.latchClear

/-- PBYTE keeps the chunk short (R140, R36). -/
theorem packByte_inv (b : Byte) {s : State} (h : s.Inv) (hm : s.mode = .direct) : (packByte b s).Inv := by
  rw [packByte_eq]
  exact { h with
    packerEmpty := fun hi => by simp [hm] at hi
    chunkShort := packStep_length b h.chunkShort }

/-- PEND leaves an empty chunk (R145). -/
theorem withLastMark_pendEffect_inv {s : State} (h : s.Inv) (hm : s.mode = .direct) :
    (withLastMark pendEffect s).Inv := by
  have hidle : s.CompressorIdle := h.compressorIdle (.inr hm)
  rw [withLastMark_pendEffect]
  exact Inv_of_compressorIdle hidle rfl h.latchSet h.latchClear

/-- Every command keeps the invariants where it is legal. -/
theorem effectOf_inv {i : Instr} {s : State} (h : s.Inv) (hl : legalIn i s.mode = true) : (effectOf i s).Inv := by
  cases i with
  | start raw => exact startEffect_inv raw h (beq_iff_eq.1 hl)
  | sym x => exact symEffect_inv x h (packed_or_raw_of_legalIn_sym hl)
  | endFrame => exact withLastMark_endEffect_inv h (packed_or_raw_of_legalIn_endFrame hl)
  | pstart => exact pstartEffect_inv h (beq_iff_eq.1 hl)
  | pbyte b => exact packByte_inv b h (beq_iff_eq.1 hl)
  | pend => exact withLastMark_pendEffect_inv h (beq_iff_eq.1 hl)

/-! ## The turns -/

/-- Every word keeps the invariants. -/
theorem stepWord_inv {w : Word} {s t : State} (h : s.Inv) (hw : stepWord w s = .next t) : t.Inv := by
  rcases stepWord_cases hw with ⟨-, rfl⟩ | ⟨-, e, -, rfl⟩ | ⟨-, i, -, hl, rfl⟩ | ⟨-, i, -, -, rfl⟩
  · exact h
  · exact raiseError_inv w (causeOf_ne_none e) h
  · exact effectOf_inv h hl
  · exact raiseError_inv _ (by decide) h

theorem commandTurn_inv {s t : State} (h : s.Inv) (ht : commandTurn s = .next t) : t.Inv := by
  rcases commandTurn_cases ht with rfl | ⟨w, rest, -, hw, -⟩
  · exact h
  · exact stepWord_inv (s := { s with cmdIn := rest }) { h with } hw

/-- Settles O14: a command turn runs a word or nothing, a take changes the ports alone, and a reset writes every
element. -/
theorem everyStepKeepsTheInvariants : Obligations.EveryStepKeepsTheInvariants := by
  intro s t h hstep
  have hturn (ts : List Turn) : ({ s with turns := ts } : State).Inv := { h with }
  rcases step_cases hstep with ⟨ts, -, hcommand⟩ | ⟨ts, -, rfl⟩ | ⟨ts, -, rfl⟩
  · exact commandTurn_inv (hturn ts) hcommand
  · exact (takeByte_sameStream _).inv (hturn ts)
  · exact assertReset_inv _

end Sys2Proof.Machine
end

-- ==== The turns: what a step runs, and a host that takes its output (70_reset_and_hazards.md) ====
section
/-! One step: the word at the port decoded and run (R76), the turns that run none (R173, R189), and that a host which
takes the bytes held gets its next word in (R188, R189). -/

namespace Sys2Proof.Machine

/-! ## One step -/

/-- Settles O15: a command turn runs the word, and the word is its command. -/
theorem stepRunsTheDecodedCommand : Obligations.StepRunsTheDecodedCommand := by
  intro s ts w rest i hturn hc hd
  obtain ⟨t, ht⟩ := stepWord_next w { s with turns := ts, cmdIn := rest }
  have hcommand : commandTurn { s with turns := ts }
      = if accepts { s with turns := ts } t then .next t else .next { s with turns := ts } := commandTurn_cons hc ht
  rw [step_of_commandTurnNext hturn, hcommand, ← stepWord_ok hd, ht]

theorem takeByte_nil {s : State} (h : s.outQ = []) : takeByte s = s := by
  simp [takeByte, h]

theorem takeByte_cons {s : State} {b : OutByte} {rest : List OutByte} (h : s.outQ = b :: rest) :
    takeByte s = { s with outQ := rest, taken := s.taken ++ [b] } := by
  simp [takeByte, h]

/-- Settles O16: a command turn with no word does nothing, and a take turn is `takeByte`. -/
theorem idleTurnsAndTakes : Obligations.IdleTurnsAndTakes := fun s ts =>
  ⟨fun hturn hc => (step_of_commandTurnNext hturn).trans (commandTurn_nil hc),
    fun _ _ htake hq => (step_take htake).trans (congrArg _ (takeByte_cons (s := { s with turns := ts }) hq)),
    fun htake hq => (step_take htake).trans (congrArg _ (takeByte_nil (s := { s with turns := ts }) hq))⟩

/-- Settles O17: a command turn always has a next state, and so have the two other turns. -/
theorem noStepFails : Obligations.NoStepFails := by
  intro s
  cases hs : s.turns with
  | nil => exact step_none hs ▸ commandTurn_next _
  | cons turn ts =>
    cases turn with
    | command => exact step_command hs ▸ commandTurn_next _
    | take => exact ⟨_, step_take hs⟩
    | reset => exact ⟨_, step_reset hs⟩

/-! ## The output taken, the word accepted -/

/-- With no byte held the block accepts every word (R189). -/
theorem accepts_drained {s : State} (t : State) (hq : s.outQ = []) : accepts s t = true := by
  simp [accepts, hq]

/-- With no byte held a command turn runs the word at the port (R189). -/
theorem commandTurn_drained {s t : State} {w : Word} {rest : List Word} (hq : s.outQ = []) (hc : s.cmdIn = w :: rest)
    (ht : stepWord w { s with cmdIn := rest } = .next t) : commandTurn s = .next t := by
  rw [commandTurn_cons hc ht, if_pos (accepts_drained t hq)]

/-- Settles O22: the word is placed behind a command turn and in front of an empty output port. -/
theorem placedWordRunsNext : Obligations.PlacedWordRunsNext := by
  intro s w
  have hplaced : s.withFetchWord 16 w.toNat = offerWord w s := by
    rw [State.withFetchWord, Nat.mod_eq_of_lt w.isLt, BitVec.ofNat_toNat, BitVec.setWidth_eq]
  obtain ⟨t, ht⟩ := stepWord_next w { s with outQ := [], taken := s.output }
  rw [hplaced, ht, step_command rfl]
  exact commandTurn_drained rfl rfl ht

/-- A run in two parts. -/
theorem run_add {m : Nat} (n : Nat) {s t : State} (h : core.run m s = .next t) : core.run (m + n) s = core.run n t := by
  induction m generalizing s with
  | zero => cases h; rw [Nat.zero_add]
  | succ m ih =>
    obtain ⟨u, hstep, hrun⟩ := run_succ_cases h
    rw [Nat.succ_add, run_succ _ hstep, ih hrun]

/-- One take for each byte held moves them all to the host (R189). -/
theorem run_takes (s : State) (q : List OutByte) (ts : List Turn) :
    core.run q.length { s with outQ := q, turns := List.replicate q.length .take ++ ts }
      = .next { s with outQ := [], turns := ts, taken := s.taken ++ q } := by
  induction q generalizing s with
  | nil => rw [List.append_nil]; rfl
  | cons b q ih =>
    have hstep : step { s with outQ := b :: q, turns := List.replicate (b :: q).length .take ++ ts }
        = .next { s with outQ := q, turns := List.replicate q.length .take ++ ts, taken := s.taken ++ [b] } := rfl
    have hrest := ih { s with taken := s.taken ++ [b] }
    rw [List.append_assoc] at hrest
    exact (run_succ q.length hstep).trans hrest

/-- The turns of a host that takes every byte held and then lets a word in (R189). -/
def takesThenCommand (s : State) (ts : List Turn) : List Turn :=
  List.replicate s.outQ.length .take ++ .command :: ts

/-- Those turns run the word at the port. -/
theorem run_takesThenCommand {s t : State} {w : Word} {rest : List Word} {ts : List Turn} (hc : s.cmdIn = w :: rest)
    (ht : stepWord w { s with cmdIn := rest, turns := ts, outQ := [], taken := s.output } = .next t) :
    core.run (s.outQ.length + 1) { s with turns := takesThenCommand s ts } = .next t := by
  have hstep : step { s with outQ := [], turns := .command :: ts, taken := s.output } = .next t :=
    (step_command rfl).trans (commandTurn_drained rfl hc ht)
  exact (run_add 1 (run_takes s s.outQ (.command :: ts))).trans ((run_succ 0 hstep).trans (run_zero t))

/-- Settles O18: the takes empty the output port, and then the block accepts the word. -/
theorem takingOutputLetsTheNextWordIn : Obligations.TakingOutputLetsTheNextWordIn := by
  intro s w rest hc hturns
  obtain ⟨u, hu⟩ := stepWord_next w { s with cmdIn := rest, turns := [], outQ := [], taken := s.output }
  have hrun := run_takesThenCommand hc hu
  rw [takesThenCommand, ← hturns] at hrun
  obtain ⟨hcmd, hleft, -, -⟩ := stepWord_ports hu
  exact ⟨u, u, hrun, hcmd, hleft, hu, rfl⟩

end Sys2Proof.Machine
end

-- ==== What the commands do to the mode and to the output (40_lzw.md, 41_packer.md) ====
section
/-! SYM (R111), which commands change the mode (R21), how many bytes each outputs (R148), and what follows for the
output stream and its buffer (R52, R189). -/

namespace Sys2Proof.Machine

/-! ## SYM -/

theorem encode_sym (x : Sym) : encode (.sym x) = BitVec.ofNat 16 (0x2000 + x.toNat) := by
  rw [← encode_sym_ofNat (Nat.le_of_lt_succ x.isLt), BitVec.ofNat_toNat, BitVec.setWidth_eq]

/-- Settles O26: past its checks SYM is its first symbol, a hit or a miss; its errors are the mode's and the
decoder's. -/
theorem symTakesOneSymbol : Obligations.SymTakesOneSymbol := by
  refine ⟨fun x => encode_sym x ▸ decode_encode _, fun s x he => ⟨fun hm hp => ?_, fun c hm hp hl => ?_,
    fun hm hp hl => ?_, fun hm => ?_, fun w hop hset => ?_⟩⟩
  · rw [exec_effectOf he (legalIn_sym x hm), effectOf, symEffect_first x hp]; rfl
  · rw [exec_effectOf he (legalIn_sym x hm), effectOf, symEffect_hit hp hl]
  · rw [exec_effectOf he (legalIn_sym x hm), effectOf, symEffect_miss hp hl]
  · have hillegal : legalIn (.sym x) s.mode = false := by rcases hm with hm | hm <;> rw [hm] <;> rfl
    rw [exec_illegal he hillegal, encode_sym]
  · have hset : reservedBitSet w := hset.imp id fun hopd => .inr (.inl ⟨hop, hopd⟩)
    exact reservedBitRaisesItsError w s he (by rw [opcodeLegal, hop]; decide) hset

/-! ## The mode -/

theorem miss_mode (x : Sym) (s : State) : (miss x s).mode = s.mode := by
  by_cases hn : s.nextCode.toNat < 4096
  · simp [miss_room x s hn]
  · simp [miss_full x s hn]

theorem symEffect_mode (x : Sym) (s : State) : (symEffect x s).mode = s.mode := by
  unfold symEffect
  split
  · rfl
  · split
    · rfl
    · exact miss_mode x s

/-- Settles O37: error entry keeps the mode, and of the commands only the four that open or close a frame write it. -/
theorem onlyFrameCommandsChangeTheMode : Obligations.OnlyFrameCommandsChangeTheMode := by
  intro i s t hexec hmode
  rcases exec_cases hexec with ⟨-, rfl⟩ | ⟨he, hl, rfl⟩ | ⟨-, -, rfl⟩
  · exact absurd rfl hmode
  · refine ⟨(effectOf_err i s).trans he, ?_⟩
    cases i with
    | start raw => exact .inl ⟨raw, rfl, beq_iff_eq.1 hl, startEffect_mode raw s⟩
    | sym x => exact absurd (symEffect_mode x s) hmode
    | endFrame => exact .inr (.inr (.inl ⟨rfl, packed_or_raw_of_legalIn_endFrame hl, rfl⟩))
    | pstart => exact .inr (.inl ⟨rfl, beq_iff_eq.1 hl, rfl⟩)
    | pbyte b => exact absurd (by rw [effectOf, packByte_eq]) hmode
    | pend => exact .inr (.inr (.inr ⟨rfl, beq_iff_eq.1 hl, rfl⟩))
  · exact absurd rfl hmode

/-! ## How many bytes a command outputs -/

theorem length_asFrameOutput (bs : List Byte) : (asFrameOutput bs).length = bs.length := by
  rw [asFrameOutput, length_markLast, List.length_map]

/-- The packer outputs 256 bytes for every 255 that it has, and nothing else before its end (R140). -/
theorem length_packAll {c : List Byte} (bs : List Byte) (h : c.length ≤ 254) :
    (packAll c bs).1.length = 256 * ((c.length + bs.length) / 255) := by
  induction bs generalizing c with
  | nil =>
    rw [packAll, List.length_nil]
    omega
  | cons b bs ih =>
    rw [packAll, List.length_append, ih (packStep_length b h)]
    by_cases hl : c.length = 254
    · simp only [packStep, if_pos hl, List.length_cons, List.length_append, List.length_nil]
      omega
    · simp only [packStep, if_neg hl, List.length_cons, List.length_append, List.length_nil]
      omega

/-- A byte sends out a whole chunk behind its length, or nothing (R140). -/
theorem packByte_output (b : Byte) (s : State) (h : s.pkCnt ≤ 254) :
    ∃ n, (packByte b s).outQ.length = s.outQ.length + n ∧ (n = 0 ∨ n = 256) := by
  rcases h.lt_or_eq with hroom | hfull
  · exact ⟨0, by rw [packByte_room b hroom]; rfl, .inl rfl⟩
  · have hchunk : s.pkBuf.length = 254 := hfull
    exact ⟨256, by simp [packByte_full b hfull, hchunk], .inr rfl⟩

theorem length_packTail {c : List Byte} (h : c.length ≤ 254) :
    1 ≤ (packTail c).length ∧ (packTail c).length ≤ 256 := by
  by_cases hc : c = []
  · rw [hc]; decide
  · rw [packTail, if_neg hc, List.length_append, List.length_cons, List.length_singleton]
    omega

/-- A miss routes the bytes of one or two codes, at most three (R116). -/
theorem miss_output (x : Sym) {s : State} (h : s.Inv) (hp : s.havePrefix = true) :
    ∃ bs, bs.length ≤ 3 ∧ (miss x s).outQ = s.outQ ++ unmarked (delivered s.mode s.pkBuf bs).1 := by
  obtain ⟨-, h12, -⟩ := h.widthLeast
  obtain ⟨-, hmax⟩ := h.nextCodeRange
  by_cases hn : s.nextCode.toNat < 4096
  · obtain ⟨bs, hd, hform⟩ := miss_learns x h hp hn
    have hlen := hd.length_le
    rw [length_natBits] at hlen
    exact ⟨bs, by omega, by rw [hform, lzwOutAll_eq]⟩
  · obtain ⟨bs, hd, hform⟩ := miss_resets x h hp (by omega)
    have hlen := hd.length_le
    simp only [List.length_append, length_natBits] at hlen
    exact ⟨bs, by omega, by rw [hform, lzwOutAll_eq]⟩

/-- SYM routes at most three bytes, none but on a miss (R111, R116). -/
theorem symEffect_output (x : Sym) {s : State} (h : s.Inv) :
    ∃ bs, bs.length ≤ 3 ∧ (symEffect x s).outQ = s.outQ ++ unmarked (delivered s.mode s.pkBuf bs).1 := by
  have hnothing : s.outQ = s.outQ ++ unmarked (delivered s.mode s.pkBuf []).1 := by
    cases s.mode <;> simp [delivered, packAll]
  cases hp : s.havePrefix with
  | false => exact ⟨[], by decide, by rw [symEffect_first x hp]; exact hnothing⟩
  | true =>
    cases hl : lookup s.prefixCode x s.table with
    | some c => exact ⟨[], by decide, by rw [symEffect_hit hp hl]; exact hnothing⟩
    | none => rw [symEffect_miss hp hl]; exact miss_output x h hp

/-- Three bytes routed are three bytes output, or one chunk or none (R106, R140). -/
theorem length_delivered {c bs : List Byte} (hc : c.length ≤ 254) (hbs : bs.length ≤ 3) :
    (delivered .raw c bs).1.length ≤ 3
      ∧ ((delivered .packed c bs).1.length = 0 ∨ (delivered .packed c bs).1.length = 256) := by
  refine ⟨hbs, ?_⟩
  rw [delivered, length_packAll bs hc]
  omega

/-- What END outputs: the bytes of the last codes straight, or what is left in the packer behind them (R112, R148). -/
theorem withLastMark_endEffect_output {s : State} (h : s.Inv) (hm : s.mode = .packed ∨ s.mode = .raw) :
    ∃ n, (withLastMark endEffect s).outQ.length = s.outQ.length + n
      ∧ (s.mode = .raw → 1 ≤ n ∧ n ≤ 4) ∧ (s.mode = .packed → 3 ≤ n ∧ n ≤ 261) := by
  obtain ⟨bs, pad, -, -, hpos, hfour, heq⟩ := withLastMark_endEffect h hm
  have hchunk : s.pkBuf.length ≤ 254 := h.chunkShort
  refine ⟨(if s.mode = .raw then bs else pack (s.pkBuf ++ bs)).length,
    by rw [heq, List.length_append, length_asFrameOutput], fun hraw => ?_, fun hpacked => ?_⟩
  · rw [if_pos hraw]
    exact ⟨hpos, hfour⟩
  · rw [if_neg (by rw [hpacked]; decide), length_pack, List.length_append]
    omega

/-- Settles O40: command by command; the packer's output follows from how much its chunk holds. -/
theorem outputBoundsPerCommand : Obligations.OutputBoundsPerCommand := by
  intro i s t h he hexec ht
  rcases exec_cases hexec with ⟨he', -⟩ | ⟨-, hl, rfl⟩ | ⟨-, -, rfl⟩
  · simp [he] at he'
  · cases i with
    | start raw => exact ⟨0, by simp [effectOf, startEffect_eq], rfl⟩
    | sym x =>
      obtain ⟨bs, hbs, hout⟩ := symEffect_output x h
      obtain ⟨hraw, hpacked⟩ := length_delivered h.chunkShort hbs
      refine ⟨(delivered s.mode s.pkBuf bs).1.length, ?_, fun hm => hm ▸ hraw, fun hm => hm ▸ hpacked⟩
      rw [effectOf, hout, List.length_append, length_unmarked]
    | endFrame => exact withLastMark_endEffect_output h (packed_or_raw_of_legalIn_endFrame hl)
    | pstart => exact ⟨0, rfl, rfl⟩
    | pbyte b => exact packByte_output b s h.chunkShort
    | pend =>
      refine ⟨(packTail s.pkBuf).length, ?_, length_packTail h.chunkShort⟩
      rw [effectOf, withLastMark_pendEffect, List.length_append, length_asFrameOutput]
  · simp at ht

/-! ## The output buffer -/

/-- A word outputs at most 261 bytes (R148). -/
theorem stepWord_output_le {w : Word} {s t : State} (h : s.Inv) (hw : stepWord w s = .next t) :
    t.outQ.length ≤ s.outQ.length + 261 := by
  rcases stepWord_cases hw with ⟨-, rfl⟩ | ⟨-, e, -, rfl⟩ | ⟨he, i, -, hl, rfl⟩ | ⟨-, i, -, -, rfl⟩
  · exact Nat.le_add_right _ _
  · exact Nat.le_add_right _ _
  · obtain ⟨n, hlen, hn⟩ := outputBoundsPerCommand i s _ h he (exec_effectOf he hl) ((effectOf_err i s).trans he)
    rw [hlen]
    refine Nat.add_le_add_left ?_ _
    cases i with
    | start raw => omega
    | sym x =>
      obtain ⟨hraw, hpacked⟩ := hn
      exact (packed_or_raw_of_legalIn_sym hl).elim (fun hm => by have := hpacked hm; omega)
        fun hm => (hraw hm).trans (by decide)
    | endFrame =>
      obtain ⟨hraw, hpacked⟩ := hn
      exact (packed_or_raw_of_legalIn_endFrame hl).elim (fun hm => (hpacked hm).2)
        fun hm => (hraw hm).2.trans (by decide)
    | pstart => omega
    | pbyte b => omega
    | pend => omega
  · exact Nat.le_add_right _ _

/-- A word that flow control lets in leaves no more bytes than the buffer holds, by either reading of R189. -/
theorem accepts_fits {s t : State} (ha : accepts s t = true) (he : s.err = false)
    (hout : t.outQ.length ≤ s.outQ.length + 261) : t.outQ.length ≤ 261 + Config.outputExtra := by
  unfold accepts at ha
  cases hq : s.outQ with
  | nil => rw [hq, List.length_nil] at hout; omega
  | cons b rest =>
    simp only [he, hq, Bool.false_or, decide_eq_true_eq, Config.maxCommandOutput] at ha
    rw [hq] at hout
    split at ha <;> omega

theorem commandTurn_fits {s t : State} (h : s.Inv) (hq : s.outQ.length ≤ 261 + Config.outputExtra)
    (ht : commandTurn s = .next t) : t.outQ.length ≤ 261 + Config.outputExtra := by
  rcases commandTurn_cases ht with rfl | ⟨w, rest, -, hw, ha⟩
  · exact hq
  · cases he : s.err with
    | true => cases (stepWord_halted (s := { s with cmdIn := rest }) he).symm.trans hw; exact hq
    | false => exact accepts_fits ha he (stepWord_output_le (s := { s with cmdIn := rest }) { h with } hw)

/-- Settles O19: only a command turn makes the bytes held more, and then they fit. -/
theorem heldOutputFitsTheBuffer : Obligations.HeldOutputFitsTheBuffer := by
  intro s t h hq hstep
  rcases step_cases hstep with ⟨ts, -, hcommand⟩ | ⟨ts, -, rfl⟩ | ⟨ts, -, rfl⟩
  · exact commandTurn_fits (s := { s with turns := ts }) { h with } hq hcommand
  · rcases takeByte_cases { s with turns := ts } with ⟨-, htake⟩ | ⟨b, rest, hcons, htake⟩
    · rw [htake]; exact hq
    · have hlen : s.outQ.length = rest.length + 1 := congrArg List.length hcons
      rw [htake]
      dsimp only
      omega
  · exact Nat.zero_le _

/-! ## The stream and the block -/

/-- A word only appends to the stream (R52). -/
theorem stepWord_output_prefix {w : Word} {s t : State} (hw : stepWord w s = .next t) : s.output <+: t.output := by
  obtain ⟨new, hout, -⟩ := stepWord_local s hw
  obtain ⟨-, -, htaken, -⟩ := stepWord_ports hw
  exact ⟨new, by rw [State.output, State.output, htaken, hout, List.append_assoc]⟩

/-- Settles O20: a word only appends, and a take moves a byte within the stream. -/
theorem outputStreamOnlyGrows : Obligations.OutputStreamOnlyGrows := by
  intro s t hstep hr
  rcases step_cases hstep with ⟨ts, -, hcommand⟩ | ⟨ts, -, rfl⟩ | ⟨ts, hts, -⟩
  · rcases commandTurn_cases hcommand with rfl | ⟨w, rest, -, hw, -⟩
    · exact List.prefix_rfl
    · exact stepWord_output_prefix (s := { s with turns := ts, cmdIn := rest }) hw
  · obtain ⟨-, hsame⟩ := takeByte_sameStream { s with turns := ts }
    rw [hsame]
    exact List.prefix_rfl
  · exact absurd hts (hr ts)

/-- Settles O41: a word does the same to the block whatever stands at the ports (R60). -/
theorem stepDependsOnTheBlockAlone : Obligations.StepDependsOnTheBlockAlone := by
  intro w s p t hw
  obtain ⟨new, hout, hports⟩ := stepWord_local p hw
  exact ⟨_, new, hports, rfl, hout, rfl, rfl, rfl, rfl, rfl⟩

end Sys2Proof.Machine
end

-- ==== Whole frames through the real step (40_lzw.md, 41_packer.md, 70_reset_and_hazards.md) ====
section
/-! One frame of either kind (R113, R146), and that the host can send any sequence of frames and take all its output
(R190). -/

namespace Sys2Proof.Machine

/-- Settles O42: the machine's SYMs are R113's loop, and END pads and packs what the loop leaves. -/
theorem compressorFrameOutputsLzw : Obligations.CompressorFrameOutputsLzw :=
  fun _ raw xs h he hm => runWords_frameWords raw xs h he hm

/-- Settles O43: the packer's bytes, by induction, with the rest of the chunk at PEND. -/
theorem packerFrameOutputsPack : Obligations.PackerFrameOutputsPack :=
  fun _ ys he hm => runWords_packerWords ys he hm

/-- The turns to come are of no account to a word. -/
theorem stepWord_withTurns {w : Word} {s t : State} (ts : List Turn) (h : stepWord w s = .next t) :
    stepWord w { s with turns := ts } = .next { t with turns := ts } := by
  obtain ⟨new, hout, hports⟩ := stepWord_local { s with turns := ts } h
  obtain ⟨hcmd, -, htaken, hdraws⟩ := stepWord_ports h
  have ht : { t with turns := ts } = { t.withPortsOf { s with turns := ts } with outQ := s.outQ ++ new } := by
    rw [← hout, State.withPortsOf, ← hcmd, ← htaken, ← hdraws]
  rw [ht]
  exact hports

/-- Whatever words are offered, the host can take output so that all are processed and every byte is taken
(R188, R189). -/
theorem exists_turns_runEnded {ws : List Word} {s : State} (hc : s.cmdIn = ws) : ∃ (ts : List Turn) (t : State),
    Turn.reset ∉ ts ∧ core.run ts.length { s with turns := ts } = .next t ∧ t.RunEnded := by
  induction ws generalizing s with
  | nil =>
    refine ⟨List.replicate s.outQ.length .take ++ [], { s with outQ := [], turns := [], taken := s.output },
      by simp, ?_, hc, rfl⟩
    rw [List.length_append, List.length_replicate]
    exact run_takes s s.outQ []
  | cons w rest ih =>
    obtain ⟨u, hu⟩ := stepWord_next w { s with cmdIn := rest, outQ := [], taken := s.output }
    obtain ⟨hcmd, -⟩ := stepWord_ports hu
    obtain ⟨ts, t, hr, hrun, hended⟩ := ih hcmd
    have hfirst := run_takesThenCommand hc (stepWord_withTurns ts hu)
    have hlen : (takesThenCommand s ts).length = s.outQ.length + 1 + ts.length := by
      simp [takesThenCommand]; omega
    refine ⟨takesThenCommand s ts, t, by simp [takesThenCommand, hr], ?_, hended⟩
    rw [hlen]
    exact (run_add ts.length hfirst).trans hrun

/-- Settles O45: the run that takes all output accepts every word, and its block and stream are those of the frames one
after the other. -/
theorem everyFrameSequenceCanSucceed : Obligations.EveryFrameSequenceCanSucceed := by
  intro s fs h he hm hc
  obtain ⟨ts, t, hr, hrun, hended⟩ := exists_turns_runEnded hc
  obtain ⟨hcmd, hdrained⟩ := hended
  obtain ⟨ws, hoffered, u, hu, hsame⟩ := run_accepted hr hrun
  have hws : ws = fs.flatMap wordsOf := by rw [← hc, hoffered, hcmd, List.append_nil]
  have hframes := frameSequenceConcatenates { s with turns := ts } fs { h with } he hm
  rw [← hws] at hframes
  cases hu.symm.trans hframes
  have hmode : t.mode = .idle := (congrArg State.mode hsame.1).trans hm
  have herr : t.err = false := (congrArg State.err hsame.1).trans he
  have ht : t.Inv := hsame.inv { h with }
  have hout : t.output = s.output ++ fs.flatMap fun f => asFrameOutput (bytesOf f) :=
    hsame.2.trans (List.append_assoc _ _ _).symm
  refine ⟨ts, t, hrun, ⟨⟨hcmd, hdrained⟩, herr, hmode⟩, ?_⟩
  rw [State.observe, hout, statusPort_idle ht hmode herr, State.errcmdPort, (ht.latchClear herr).2]

end Sys2Proof.Machine
end
